-- ==== Sys2Proof/Config.lean ====
section
/-! DEFINITION. What is fixed for one block: the constants and parameters of 00_scope.md R5 and R6, and the
free values of the registers that a reset leaves unspecified (10_state.md R36). -/

namespace Sys2Proof.Config

/-- `WORD_W` (R6, 93_implementation_defined.md U4): the width of one wordlist entry, an OPEN parameter of the block. It has
no value here (the spec's default 64 is one instance), so whatever is proved holds at every width (log entry 1). -/
opaque wordW : Nat

/-- `WLSIZE` (R5): entries of a wordlist, indexed 0 to 2047. -/
abbrev wlSize : Nat := 2048

/-- `EBUF_CAP` (R6): cells of the entropy buffer. -/
abbrev ebufCap : Nat := 256

/-- `LEN_MAX` (R6): where the symbol counter saturates. -/
abbrev lenMax : Nat := 511

/-- `WLCNT_MAX` (R6): where the entry counter saturates. -/
abbrev wlCntMax : Nat := 4095

/-- `CH0` (R6): the code of the character '0'. -/
def ch0 : BitVec 8 := 0x30#8

/-- `CH1` (R6): the code of the character '1'. -/
def ch1 : BitVec 8 := 0x31#8

/-- `LENSET` (R5): the permitted entropy lengths. -/
def lenSet : List Nat := [128, 160, 192, 224, 256]

/-! Free values (log entry 6). R36: "unspecified after reset: a model must not assume any value for them".
Each is applied to the number of reset steps so far, so that two resets may leave different values. -/

/-- `K` after a reset step. -/
opaque resetK : Nat → BitVec 5
/-- `MSG` after a reset step. -/
opaque resetMsg : Nat → Vector (BitVec 8) 32
/-- `DIGEST` after a reset step. -/
opaque resetDigest : Nat → BitVec 256
/-- `CS` after a reset step. -/
opaque resetCs : Nat → BitVec 8
/-- `FULL` after a reset step. -/
opaque resetFull : Nat → BitVec 264
/-- `MIDX` after a reset step. -/
opaque resetMidx : Nat → Vector (BitVec 11) 24
/-- `MWORD` after a reset step. -/
opaque resetMword : Nat → Vector (BitVec wordW) 24

end Sys2Proof.Config
end

