-- ==== Sys2Proof/Word.lean ====
section
/-! DEFINITION. The value types of the block (00_scope.md R7). -/

namespace Sys2Proof

/-- One wordlist entry: opaque to the block (10_state.md R15). -/
abbrev Word := BitVec Config.wordW

/-- A packed message byte, or an 8-bit character code. -/
abbrev Byte := BitVec 8

/-- A command word (30_encoding.md R55), bit 15 the most significant. -/
abbrev CmdWord := BitVec 16

/-- A wordlist index, 0 to 2047. -/
abbrev Index := BitVec 11

/-- A bit array `A[0..n-1]` of R7(a). Its cell 0 is its leftmost bit, the most significant one when the array is read as
a number, so `val(A)` is `toNat`. Cells are read by `BitArray.cell` and built by `BitArray.tabulate` (Machine/Bits.lean),
never by the numbering of R7(b). DESIGN CHOICE (log entry 14): the representation only. -/
abbrev BitArray (n : Nat) := BitVec n

end Sys2Proof
end

