-- ==== Sys2Proof/Syntax.lean ====
section
/-! DEFINITION. The seven commands of the opcode table (30_encoding.md R59). -/

namespace Sys2Proof

/-- One constructor per row of the opcode table. The side operand of `WLAPP` is not part of the command word: it is
the port `wdata`, sampled at the accepting edge (R58). -/
inductive Instr where
  /-- `NOP`, format Z (R66). -/
  | nop
  /-- `CLR`, format Z (R67). -/
  | clr
  /-- `PUSH imm8`, format I (R68); `imm8` is an unsigned 8-bit character code (R57). -/
  | push (imm8 : Byte)
  /-- `ENC`, format Z (R75). -/
  | enc
  /-- `INV`, format Z (R102). -/
  | inv
  /-- `WLCLR`, format Z (R70). -/
  | wlclr
  /-- `WLAPP`, format W (R71). -/
  | wlapp
deriving DecidableEq, Repr

end Sys2Proof
end

