-- ==== Sys2Proof/WellFormed.lean ====
section
/-! DEFINITION. Which terms are well-formed: command words (30_encoding.md R56, R61) and instructions. -/

namespace Sys2Proof

/-- The `opcode` field, bits 15:12 (R56). -/
def CmdWord.opcode (c : CmdWord) : BitVec 4 := c.extractLsb' 12 4

/-- The field bits 11:8, zero in every format (R56). -/
def CmdWord.zeroField (c : CmdWord) : BitVec 4 := c.extractLsb' 8 4

/-- The field bits 7:0: `zero8` in the formats Z and W, `imm8` in the format I (R56, R57). -/
def CmdWord.low (c : CmdWord) : Byte := c.extractLsb' 0 8

/-- First check: the opcode is one of 0x0 to 0x6 (R61). -/
def CmdWord.opcodeAssigned (c : CmdWord) : Bool := decide (c.opcode.toNat < 7)

/-- Second check: bits 11:8 are zero (R61). -/
def CmdWord.zeroFieldClear (c : CmdWord) : Bool := c.zeroField == 0#4

/-- Third check: bits 7:0 are zero unless the opcode is that of `PUSH` (R61). -/
def CmdWord.lowFieldFits (c : CmdWord) : Bool := c.opcode == 0x2#4 || c.low == 0#8

/-- A legal command word: all three checks hold (R60, R61). -/
def CmdWord.wellFormed (c : CmdWord) : Bool := c.opcodeAssigned && c.zeroFieldClear && c.lowFieldFits

/-- Every instruction term is well-formed: `imm8` has its eight bits by its type and no command has another field in
its word, so there is no condition left to check. -/
def Instr.wellFormed (i : Instr) : Bool :=
  match i with
  | .nop => true
  | .clr => true
  | .push _ => true
  | .enc => true
  | .inv => true
  | .wlclr => true
  | .wlapp => true

end Sys2Proof
end

