-- ==== Sys2Proof/Decode.lean ====
section
/-! DEFINITION. The decoder, total on every 16-bit word, and the encoder (30_encoding.md R56 to R61). -/

namespace Sys2Proof

/-- Why a word selects no row: the three kinds of illegal word of R61. A word of two kinds is given the first
(DESIGN CHOICE, log entry 20: every illegal word has the same effect). -/
inductive DecodeError where
  /-- The opcode is in 0x7..0xF. -/
  | reservedOpcode
  /-- `cmd[11:8] != 0`. -/
  | nonzeroBits11to8
  /-- `cmd[7:0] != 0` on a command without an immediate. -/
  | nonzeroBits7to0
deriving DecidableEq, Repr

/-- One row of the opcode map (R59). -/
structure OpcodeRow where
  /-- The row's bits where the mask is 1. -/
  pattern : CmdWord
  /-- The bits the row fixes. -/
  mask : CmdWord
  /-- The instruction, given the word's bits 7:0. -/
  build : Byte → Instr

/-- "a word `c` selects the row when `(c AND mask) = match`" (R59). -/
def OpcodeRow.selects (r : OpcodeRow) (c : CmdWord) : Bool := c &&& r.mask == r.pattern

/-- The table of R59, in its order. -/
def opcodeTable : List OpcodeRow :=
  [ ⟨0x0000#16, 0xFFFF#16, fun _ => .nop⟩,
    ⟨0x1000#16, 0xFFFF#16, fun _ => .clr⟩,
    ⟨0x2000#16, 0xFF00#16, fun imm8 => .push imm8⟩,
    ⟨0x3000#16, 0xFFFF#16, fun _ => .enc⟩,
    ⟨0x4000#16, 0xFFFF#16, fun _ => .inv⟩,
    ⟨0x5000#16, 0xFFFF#16, fun _ => .wlclr⟩,
    ⟨0x6000#16, 0xFFFF#16, fun _ => .wlapp⟩ ]

/-- The name of the rejection of a word that selects no row (R61). -/
def illegalReason (c : CmdWord) : DecodeError :=
  if !c.opcodeAssigned then .reservedOpcode
  else if !c.zeroFieldClear then .nonzeroBits11to8
  else .nonzeroBits7to0

/-- The decoder: the row the word selects, or the name of the rejection. It depends on no state (R60). -/
def decode (c : CmdWord) : Except DecodeError Instr :=
  match opcodeTable.find? (fun r => r.selects c) with
  | some r => .ok (r.build c.low)
  | none => .error (illegalReason c)

/-- The word of an instruction: opcode, four zero bits, low byte (R56, R59). -/
def encode (i : Instr) : CmdWord :=
  match i with
  | .nop => 0x0#4 ++ 0x0#4 ++ 0x00#8
  | .clr => 0x1#4 ++ 0x0#4 ++ 0x00#8
  | .push imm8 => 0x2#4 ++ 0x0#4 ++ imm8
  | .enc => 0x3#4 ++ 0x0#4 ++ 0x00#8
  | .inv => 0x4#4 ++ 0x0#4 ++ 0x00#8
  | .wlclr => 0x5#4 ++ 0x0#4 ++ 0x00#8
  | .wlapp => 0x6#4 ++ 0x0#4 ++ 0x00#8

/-- The command word whose bits the opcode table numbers as `w` (nbits of them). Every command is exactly one 16-bit word
(R63): a longer instruction does not exist. -/
def tableWord (nbits w : Nat) : Option CmdWord :=
  if w % 2 ^ nbits < 2 ^ 16 then some (BitVec.ofNat 16 (w % 2 ^ nbits)) else none

/-- The instruction the decoder reads from a table word; none where it refuses. -/
def decodeTableWord (nbits w : Nat) : Option Instr :=
  match tableWord nbits w with
  | some c => (decode c).toOption
  | none => none

end Sys2Proof
end

