-- ==== Sys2Proof/Machine/Bits.lean ====
section
/-! DEFINITION. Bit arrays in string order, and small arrays of registers (00_scope.md R7, R8). -/

namespace Sys2Proof

/-- `A[i]` of a bit array: cell 0 is the most significant bit; there is no cell at or above `n` (it reads false). -/
def BitArray.cell {n : Nat} (A : BitArray n) (i : Nat) : Bool := A.getMsbD i

/-- The bit array whose cell `i` is `f i`. -/
def BitArray.tabulate : (n : Nat) → (Nat → Bool) → BitArray n
  | 0, _ => 0#0
  | n + 1, f => BitVec.concat (BitArray.tabulate n f) (f n)

/-- `A[i] <- b`: one cell written, the others kept. -/
def BitArray.setCell {n : Nat} (A : BitArray n) (i : Nat) (b : Bool) : BitArray n :=
  BitArray.tabulate n (fun j => if j = i then b else A.cell j)

/-- Cells `0..m-1` complemented, the others kept. -/
def BitArray.flipBelow {n : Nat} (A : BitArray n) (m : Nat) : BitArray n :=
  BitArray.tabulate n (fun j => if j < m then !A.cell j else A.cell j)

/-- `val(A)` of R7(a) for a list of bits, first bit most significant. -/
def bitsVal (bits : List Bool) : Nat := bits.foldl (fun v b => 2 * v + b.toNat) 0

namespace Regs

/-- Element `i` of an array of registers; `d` where there is none. -/
def entry {α : Type} {n : Nat} (v : Vector α n) (i : Nat) (d : α) : α := if h : i < n then v[i] else d

/-- The array whose element `i` is `f i`. -/
def tabulate {α : Type} (n : Nat) (f : Nat → α) : Vector α n := ⟨⟨(List.range n).map f⟩, by simp⟩

/-- Element `i` written, the others kept. -/
def setEntry {α : Type} {n : Nat} (v : Vector α n) (i : Nat) (x : α) : Vector α n := v.setIfInBounds i x

end Regs

end Sys2Proof
end

