-- ==== Sys2Proof/Machine/State.lean ====
section
/-! DEFINITION. The state of the block as plain data (10_state.md R11), the reasons to stop, and the state after reset
(10_state.md R36). -/

namespace Sys2Proof.Machine

/-- `PHASE` (R17): what the engine does next. -/
inductive Phase where
  | idle | validate | pack | hash | csum | concat | index
deriving DecidableEq, Repr

/-- The wordlist memory `WL` as (cell number, entry) pairs, cell numbers strictly rising (`Memory.wf`). A cell that is not
listed holds no value the spec gives: it was never appended (93_implementation_defined.md U5; log entry 7). -/
abbrev Memory := List (Nat × Word)

/-- One coming move of the host or of the reset input (00_scope.md R9, 30_encoding.md R55, 70_reset_and_hazards.md R126 and
R129). DESIGN CHOICE (log entry 3): the order of the agents' moves is this list, held in State. -/
inductive HostMove where
  /-- The host presents `cmd` and `wdata` and keeps them unchanged until they are accepted (R55). -/
  | hold (cmd : CmdWord) (wdata : Word)
  /-- The host presents them for one step and withdraws them, accepted or not (R129). -/
  | once (cmd : CmdWord) (wdata : Word)
  /-- The host presents nothing for one step (`cmd_valid = 0`). -/
  | quiet
  /-- An edge with `rst = 1` (R126). -/
  | reset
deriving DecidableEq, Repr

/-- Why the machine stops. No meaning of a command raises one; each is raised by an engine step, in a state that no run
from reset reaches, where a claim about the machine is lost and none is gained: all are safe. -/
inductive Fault where
  /-- Raised by the INDEX step when it looks up a `WL` cell that was never appended: U5, "reading one would be a `fault`".
  Safe (log entry 7). -/
  | wordlistCellUnspecified (cell : Nat)
  /-- Raised by the steps PACK to INDEX when `LEN` is no permitted length: the length functions "are not defined and not
  used" there (42_encode.md R76). Safe (log entry 12). -/
  | lengthFunctionUndefined (len : Nat)
  /-- Raised by the INDEX step when `K` is no group number of the run: `group(k)` is defined for `k` in `0..nw(L)-1` only
  (42_encode.md R82). Safe (log entry 12). -/
  | groupUndefined (k : Nat)
deriving DecidableEq, Repr

/-- Why the model has no meaning for something. -/
inductive Refusal where
  /-- Raised by an arm of `exec` whose instruction has no meaning yet; no arm raises it. Safe: nothing is proved of a
  run that stops here. -/
  | notModelled (mnemonic : String)
deriving DecidableEq, Repr

/-- The complete state of R11, then three fields of the model's own. -/
structure State where
  /-- `EBUF[0..255]` (R12), in string order. -/
  ebuf : BitArray 256
  /-- `LEN[8:0]` (R13). -/
  len : BitVec 9
  /-- `BADCH` (R14). -/
  badch : Bool
  /-- `WL[0..2047]` (R15). -/
  wl : Memory
  /-- `WLCNT[11:0]` (R16). -/
  wlcnt : BitVec 12
  /-- `PHASE` (R17). -/
  phase : Phase
  /-- `K[4:0]` (R18). -/
  k : BitVec 5
  /-- `MSG[0..31]` (R19). -/
  msg : Vector Byte 32
  /-- `DIGEST[255:0]` (R20). -/
  digest : BitVec 256
  /-- `CS[7:0]` (R21). -/
  cs : BitVec 8
  /-- `FULL[0..263]` (R22), in string order. -/
  full : BitArray 264
  /-- `MIDX[0..23]` (R23). -/
  midx : Vector Index 24
  /-- `MWORD[0..23]` (R23). -/
  mword : Vector Word 24
  /-- `NWORDS[4:0]` (R24). -/
  nwords : BitVec 5
  /-- `DONE` (R25). -/
  done : Bool
  /-- `ERR[2:0]` (R26): bit 0 `InvalidLengthError`, bit 1 `InvalidCharacterError`, bit 2 `WordlistSizeError`. -/
  err : BitVec 3
  /-- `ILL` (R27). -/
  ill : Bool
  /-- The port `wdata` as sampled at the last accepting edge (R30, R58; log entry 4). -/
  wdata : Word
  /-- The coming moves of the host and of the reset input, the next one first (log entry 3). -/
  host : List HostMove
  /-- How many reset steps have happened: selects the free values of Config (log entry 6). -/
  resets : Nat
deriving DecidableEq, Repr

/-- The state after reset (R36), nothing presented on the command port. `K`, `MSG`, `DIGEST`, `CS`, `FULL`, `MIDX` and
`MWORD` are unspecified in the spec: zero is a DESIGN CHOICE (log entry 5); so are `wdata`, `host` and `resets` (log
entries 3, 4, 6). No cell of `WL` is listed (log entry 7). -/
def State.reset : State where
  ebuf := 0#256
  len := 0#9
  badch := false
  wl := []
  wlcnt := 0#12
  phase := .idle
  k := 0#5
  msg := Vector.replicate 32 0#8
  digest := 0#256
  cs := 0#8
  full := 0#264
  midx := Vector.replicate 24 0#11
  mword := Vector.replicate 24 0
  nwords := 0#5
  done := false
  err := 0#3
  ill := false
  wdata := 0
  host := []
  resets := 0

end Sys2Proof.Machine
end

