-- ==== Sys2Proof/Machine/Operands.lean ====
section
/-! DEFINITION. The operands of the commands and of the engine steps: the immediate (30_encoding.md R57), the implicit
operands (44_invert.md R102), the cells the accesses address (45_common_laws.md R107), the length functions
(42_encode.md R76). -/

namespace Sys2Proof.Machine

/-- `valid` of R68: the code is that of '0' or of '1', by equality of all eight bits (R57). -/
def symbolValid (imm8 : Byte) : Bool := imm8 == Config.ch0 || imm8 == Config.ch1

/-- `bit` of R68: `imm8[0]` of a valid symbol, else 0 (U13, log entry 11). -/
def symbolBit (imm8 : Byte) : Bool := if symbolValid imm8 then imm8.getLsbD 0 else false

/-- `L`: the value of `LEN` as a number. -/
def State.entLen (s : State) : Nat := s.len.toNat

/-- `min(LEN, 256)`: how many cells of `EBUF` hold a symbol (R102). -/
def State.storedLen (s : State) : Nat := min s.entLen Config.ebufCap

/-- The cell of `EBUF` that `PUSH` stores to: `LEN`, only if `LEN < 256` (R68, R107). -/
def State.pushCell (s : State) : Option Nat := if s.entLen < Config.ebufCap then some s.entLen else none

/-- The cell of `WL` that `WLAPP` stores to: `WLCNT`, only if `WLCNT < 2048` (R71, R107). -/
def State.appendCell (s : State) : Option Nat :=
  if s.wlcnt.toNat < Config.wlSize then some s.wlcnt.toNat else none

/-- `L` in `LENSET` (R5). -/
def inLenSet (L : Nat) : Bool := Config.lenSet.contains L

/-- `nb(L) = L/8` (R76): packed bytes. -/
def nb (L : Nat) : Nat := L / 8

/-- `cslen(L) = L/32` (R76): checksum bits. -/
def cslen (L : Nat) : Nat := L / 32

/-- `flen(L) = L + L/32` (R76): entropy and checksum bits. -/
def flen (L : Nat) : Nat := L + L / 32

/-- `nw(L) = flen(L)/11` (R76): words. -/
def nw (L : Nat) : Nat := flen L / 11

end Sys2Proof.Machine
end

