-- ==== Sys2Proof/Machine/Flags.lean ====
section
/-! DEFINITION. Every flag computation of the spec: the error flags (42_encode.md R77, 60_exceptions.md R109 to R113), the
error code (10_state.md R31), the sticky flag `BADCH` (10_state.md R14). No operation produces a carry, overflow, zero or
negative flag (45_common_laws.md R105). -/

namespace Sys2Proof.Machine

/-- `e0` of R77, `InvalidLengthError` (R110): `LEN` is no permitted length. -/
def State.lengthError (s : State) : Bool := !inLenSet s.entLen

/-- `e1` of R77, `InvalidCharacterError` (R111). -/
def State.characterError (s : State) : Bool := s.badch

/-- `e2` of R77, `WordlistSizeError` (R112). -/
def State.wordlistError (s : State) : Bool := s.wlcnt.toNat != Config.wlSize

/-- `(e2, e1, e0)` of R77, all causes together (R113): `ERR[2] = e2`, `ERR[1] = e1`, `ERR[0] = e0`. -/
def State.errorFlags (s : State) : BitVec 3 :=
  BitVec.ofBool s.wordlistError ++ BitVec.ofBool s.characterError ++ BitVec.ofBool s.lengthError

/-- `errcode` of R31: 0 without an error, else the number of the lowest set flag plus 1 (R113; log entry 17). -/
def errorCode (err : BitVec 3) : BitVec 2 :=
  if err = 0#3 then 0#2
  else if err.getLsbD 0 then 1#2
  else if err.getLsbD 1 then 2#2
  else 3#2

/-- `BADCH` after a `PUSH` of `imm8` (R14, R68): set by an invalid symbol, never cleared. -/
def badchAfter (badch : Bool) (imm8 : Byte) : Bool := badch || !symbolValid imm8

end Sys2Proof.Machine
end

