-- ==== Sys2Proof/Machine/Ops.lean ====
section
/-! DEFINITION. The named operations over the wordlist memory and the registers, the entry of an error and the return
from it (60_exceptions.md R114, R116), an illegal word (30_encoding.md R61), a reset edge (70_reset_and_hazards.md R126). -/

namespace Sys2Proof.Machine

/-- `WlRead(a)` (00_scope.md R8): one whole entry; none where no entry was ever appended (log entry 7). -/
def Memory.read : Memory → Nat → Option Word
  | [], _ => none
  | (b, w) :: rest, a => if a = b then some w else Memory.read rest a

/-- `WlWrite(a, w)` (00_scope.md R8): one whole entry, the cells kept in rising order. -/
def Memory.write : Memory → Nat → Word → Memory
  | [], a, w => [(a, w)]
  | (b, x) :: rest, a, w =>
    if a < b then (a, w) :: (b, x) :: rest
    else if a = b then (a, w) :: rest
    else (b, x) :: Memory.write rest a w

/-- Cell numbers strictly rising, from `lo` on, all of them cells of `WL`. -/
def Memory.wfFrom : Nat → Memory → Bool
  | _, [] => true
  | lo, (a, _) :: rest => decide (lo ≤ a) && decide (a < Config.wlSize) && Memory.wfFrom (a + 1) rest

/-- The canonical form of the wordlist memory. An unlisted cell reads as none, which no listed entry equals. -/
def Memory.wf (m : Memory) : Bool := Memory.wfFrom 0 m

/-- `min(x + 1, top)`: the saturating counters `LEN` and `WLCNT` (45_common_laws.md R105). -/
def saturatingInc {n : Nat} (top : Nat) (x : BitVec n) : BitVec n := BitVec.ofNat n (min (x.toNat + 1) top)

/-- `PHASE <- p`. -/
def State.toPhase (s : State) (p : Phase) : State := { s with phase := p }

/-- `LEN`, `BADCH` and `EBUF` cleared (R67). -/
def State.clearEntropy (s : State) : State := { s with ebuf := 0#256, len := 0#9, badch := false }

/-- `DONE`, `ERR` and `NWORDS` cleared, as `CLR` and the acceptance of `ENC` do (R67, R75). This is also the return from an
error (R116): it has no instruction of its own. -/
def State.clearStatus (s : State) : State := { s with done := false, err := 0#3, nwords := 0#5 }

/-- `ILL <- 0` (R67). -/
def State.clearIllegal (s : State) : State := { s with ill := false }

/-- The whole effect of an illegal word: `ILL <- 1` (R61; log entry 9). -/
def State.markIllegal (s : State) : State := { s with ill := true }

/-- Error entry (R114): "`ERR <- (e2, e1, e0)`; `DONE <- 1`; `PHASE <- IDLE`", "exactly this and nothing else". -/
def State.raiseErrors (s : State) (flags : BitVec 3) : State :=
  { s with err := flags, done := true, phase := .idle }

/-- The end of a successful run (R84): `NWORDS <- n`, `DONE <- 1`, `PHASE <- IDLE`, together. -/
def State.publish (s : State) (n : Nat) : State :=
  { s with nwords := BitVec.ofNat 5 n, done := true, phase := .idle }

/-- `EBUF[c] <- b` where there is a cell to store to (R68). -/
def State.storeBit (s : State) (c : Option Nat) (b : Bool) : State :=
  match c with
  | some i => { s with ebuf := s.ebuf.setCell i b }
  | none => s

/-- `LEN` and `BADCH` after one more symbol (R68). -/
def State.countSymbol (s : State) (imm8 : Byte) : State :=
  { s with len := saturatingInc Config.lenMax s.len, badch := badchAfter s.badch imm8 }

/-- `EBUF[i] <- 1 - EBUF[i]` for every `i` below `m` (R102). -/
def State.flipEntropy (s : State) (m : Nat) : State := { s with ebuf := s.ebuf.flipBelow m }

/-- `WL[c] <- w` where there is a cell to store to (R71). -/
def State.storeEntry (s : State) (c : Option Nat) (w : Word) : State :=
  match c with
  | some a => { s with wl := s.wl.write a w }
  | none => s

/-- `WLCNT` after one more entry (R71). -/
def State.countEntry (s : State) : State := { s with wlcnt := saturatingInc Config.wlCntMax s.wlcnt }

/-- `WLCNT <- 0` (R70). -/
def State.forgetEntries (s : State) : State := { s with wlcnt := 0#12 }

/-- `MIDX[k] <- a` and `MWORD[k] <- w` (R83). -/
def State.storeResult (s : State) (k : Nat) (a : Index) (w : Word) : State :=
  { s with midx := Regs.setEntry s.midx k a, mword := Regs.setEntry s.mword k w }

/-- `MSG <- m` (R78). -/
def State.setMsg (s : State) (m : Vector Byte 32) : State := { s with msg := m }

/-- `DIGEST <- d` (R79). -/
def State.setDigest (s : State) (d : BitVec 256) : State := { s with digest := d }

/-- `CS <- c` (R80). -/
def State.setChecksum (s : State) (c : BitVec 8) : State := { s with cs := c }

/-- `FULL <- f` and `K <- 0`, together (R81). -/
def State.setFull (s : State) (f : BitArray 264) : State := { s with full := f, k := 0#5 }

/-- `K <- K + 1` (R83). -/
def State.advanceK (s : State) : State := { s with k := s.k + 1#5 }

/-- A reset edge (R126): the values of R36, whatever the state was. `WL` is not reset (R15, R74; log entry 8); the registers
that R36 leaves unspecified take free values (log entry 6); the port `wdata` and the moves still to come are no
part of the block's state and stay. -/
def State.resetEdge (s : State) : State where
  ebuf := 0#256
  len := 0#9
  badch := false
  wl := s.wl
  wlcnt := 0#12
  phase := .idle
  k := Config.resetK s.resets
  msg := Config.resetMsg s.resets
  digest := Config.resetDigest s.resets
  cs := Config.resetCs s.resets
  full := Config.resetFull s.resets
  midx := Config.resetMidx s.resets
  mword := Config.resetMword s.resets
  nwords := 0#5
  done := false
  err := 0#3
  ill := false
  wdata := s.wdata
  host := s.host
  resets := s.resets + 1

/-- The host's coming moves replaced. -/
def State.withHost (s : State) (h : List HostMove) : State := { s with host := h }

/-- The port `wdata` sampled at an accepting edge (R58). -/
def State.sampleWdata (s : State) (w : Word) : State := { s with wdata := w }

end Sys2Proof.Machine
end

