-- ==== Sys2Proof/Machine/Encode.lean ====
section
/-! DEFINITION. The encode command `ENC` (42_encode.md R75); the engine steps it starts are in Machine/Engine.lean. -/

namespace Sys2Proof.Machine

/-- The accepting step of `ENC` (R75): the status cleared, the engine at VALIDATE. -/
def execEnc (s : State) : Host.Outcome State Fault Refusal := .next (s.clearStatus.toPhase .validate)

end Sys2Proof.Machine
end

