-- ==== Sys2Proof/Machine/Entropy.lean ====
section
/-! DEFINITION. The entropy input commands `NOP`, `CLR`, `PUSH` (40_entropy_input.md). -/

namespace Sys2Proof.Machine

/-- `NOP` (R66): "no assignment; every state element keeps its value". -/
def execNop (s : State) : Host.Outcome State Fault Refusal := .next s

/-- `CLR` (R67): the entropy buffer, the status, the illegal-word flag and the result are cleared; the wordlist is kept. -/
def execClr (s : State) : Host.Outcome State Fault Refusal := .next s.clearEntropy.clearStatus.clearIllegal

/-- `PUSH imm8` (R68): the symbol's bit stored in cell `LEN` if there is one, the symbol counted, an invalid one
remembered. -/
def execPush (imm8 : Byte) (s : State) : Host.Outcome State Fault Refusal :=
  .next ((s.storeBit s.pushCell (symbolBit imm8)).countSymbol imm8)

end Sys2Proof.Machine
end

