-- ==== Sys2Proof/Machine/Invert.lean ====
section
/-! DEFINITION. The bit-flip command `INV` (44_invert.md). -/

namespace Sys2Proof.Machine

/-- `INV` (R102): cells `0..min(LEN,256)-1` complemented in place. It checks nothing (R104; log entry 10). -/
def execInv (s : State) : Host.Outcome State Fault Refusal := .next (s.flipEntropy s.storedLen)

end Sys2Proof.Machine
end

