-- ==== Sys2Proof/Machine/Wordlist.lean ====
section
/-! DEFINITION. The wordlist commands `WLCLR` and `WLAPP` (41_wordlist.md). -/

namespace Sys2Proof.Machine

/-- `WLCLR` (R70): `WLCNT <- 0`; the cells keep their contents. -/
def execWlclr (s : State) : Host.Outcome State Fault Refusal := .next s.forgetEntries

/-- `WLAPP` (R71): `wdata` stored in cell `WLCNT` if there is one, and counted. -/
def execWlapp (s : State) : Host.Outcome State Fault Refusal :=
  .next (s.storeEntry s.appendCell s.wdata).countEntry

end Sys2Proof.Machine
end

