-- ==== Sys2Proof/Machine/Dispatch.lean ====
section
/-! DEFINITION. One arm per command: its effect at the edge that accepts it. -/

namespace Sys2Proof.Machine

def exec (i : Instr) (s : State) : Host.Outcome State Fault Refusal :=
  match i with
  | .nop => Sys2Proof.Machine.execNop s
  | .clr => Sys2Proof.Machine.execClr s
  | .push imm8 => Sys2Proof.Machine.execPush imm8 s
  | .enc => Sys2Proof.Machine.execEnc s
  | .inv => Sys2Proof.Machine.execInv s
  | .wlclr => Sys2Proof.Machine.execWlclr s
  | .wlapp => Sys2Proof.Machine.execWlapp s

end Sys2Proof.Machine
end

