-- ==== Sys2Proof/Machine/Sha256.lean ====
section
/-! DEFINITION. The function `SHA256` of `sha256_hash_unit` (43_sha256.md R92), by R95 to R101, for messages of one block
(at most 55 bytes; the block hashes 16, 20, 24, 28 or 32). The spec marks these rules as general knowledge and allows an
uninterpreted function instead (R93): log entry 2. -/

namespace Sys2Proof.Sha256

/-- The 32-bit words of the function; `+` is modulo 2^32. -/
abbrev W32 := BitVec 32

/-- `ROTR(x, r)`. -/
def rotr (x : W32) (r : Nat) : W32 := (x >>> r) ||| (x <<< (32 - r))

/-- `Ch` (R96). -/
def ch (x y z : W32) : W32 := (x &&& y) ^^^ (~~~x &&& z)

/-- `Maj` (R96). -/
def maj (x y z : W32) : W32 := (x &&& y) ^^^ (x &&& z) ^^^ (y &&& z)

/-- `BSIG0` (R96). -/
def bsig0 (x : W32) : W32 := rotr x 2 ^^^ rotr x 13 ^^^ rotr x 22

/-- `BSIG1` (R96). -/
def bsig1 (x : W32) : W32 := rotr x 6 ^^^ rotr x 11 ^^^ rotr x 25

/-- `SSIG0` (R96). -/
def ssig0 (x : W32) : W32 := rotr x 7 ^^^ rotr x 18 ^^^ (x >>> 3)

/-- `SSIG1` (R96). -/
def ssig1 (x : W32) : W32 := rotr x 17 ^^^ rotr x 19 ^^^ (x >>> 10)

/-- The block `B[0..63]` of a message of at most 55 bytes (R95): the message, 0x80, zeros to byte 55, the bit length
as eight big-endian bytes. -/
def paddedBlock (m : List Byte) : List Byte :=
  m ++ [0x80#8] ++ List.replicate (55 - m.length) 0x00#8
    ++ (List.range 8).map (fun j => BitVec.ofNat 8 ((8 * m.length) >>> (8 * (7 - j))))

/-- `W[t]` for `t` below 16 (R95): four bytes, big-endian. -/
def blockWord (b : List Byte) (t : Nat) : W32 :=
  b.getD (4 * t) 0#8 ++ b.getD (4 * t + 1) 0#8 ++ b.getD (4 * t + 2) 0#8 ++ b.getD (4 * t + 3) 0#8

/-- `n` more words of the schedule (R97), in front of the words so far, newest first: the words `W[t-2]`, `W[t-7]`, `W[t-15]`,
`W[t-16]` stand at the places 1, 6, 14, 15. -/
def extendSchedule : Nat → List W32 → List W32
  | 0, ws => ws
  | n + 1, ws =>
    extendSchedule n ((ssig1 (ws.getD 1 0) + ws.getD 6 0 + ssig0 (ws.getD 14 0) + ws.getD 15 0) :: ws)

/-- `W[0..63]` (R95, R97). -/
def schedule (m : List Byte) : List W32 :=
  (extendSchedule 48 ((List.range 16).map (blockWord (paddedBlock m))).reverse).reverse

/-- The eight working variables (R100). -/
structure Vars where
  a : W32
  b : W32
  c : W32
  d : W32
  e : W32
  f : W32
  g : W32
  h : W32
deriving DecidableEq, Repr

/-- `H0` to `H7` (R98). -/
def initial : Vars where
  a := 0x6A09E667#32
  b := 0xBB67AE85#32
  c := 0x3C6EF372#32
  d := 0xA54FF53A#32
  e := 0x510E527F#32
  f := 0x9B05688C#32
  g := 0x1F83D9AB#32
  h := 0x5BE0CD19#32

/-- `K256[0..63]` (R99). -/
def k256 : List W32 :=
  [0x428A2F98, 0x71374491, 0xB5C0FBCF, 0xE9B5DBA5, 0x3956C25B, 0x59F111F1, 0x923F82A4, 0xAB1C5ED5] ++
  [0xD807AA98, 0x12835B01, 0x243185BE, 0x550C7DC3, 0x72BE5D74, 0x80DEB1FE, 0x9BDC06A7, 0xC19BF174] ++
  [0xE49B69C1, 0xEFBE4786, 0x0FC19DC6, 0x240CA1CC, 0x2DE92C6F, 0x4A7484AA, 0x5CB0A9DC, 0x76F988DA] ++
  [0x983E5152, 0xA831C66D, 0xB00327C8, 0xBF597FC7, 0xC6E00BF3, 0xD5A79147, 0x06CA6351, 0x14292967] ++
  [0x27B70A85, 0x2E1B2138, 0x4D2C6DFC, 0x53380D13, 0x650A7354, 0x766A0ABB, 0x81C2C92E, 0x92722C85] ++
  [0xA2BFE8A1, 0xA81A664B, 0xC24B8B70, 0xC76C51A3, 0xD192E819, 0xD6990624, 0xF40E3585, 0x106AA070] ++
  [0x19A4C116, 0x1E376C08, 0x2748774C, 0x34B0BCB5, 0x391C0CB3, 0x4ED8AA4A, 0x5B9CCA4F, 0x682E6FF3] ++
  [0x748F82EE, 0x78A5636F, 0x84C87814, 0x8CC70208, 0x90BEFFFA, 0xA4506CEB, 0xBEF9A3F7, 0xC67178F2]

/-- One round (R100), with `K256[t]` and `W[t]`; all eight assignments use the values from before the round. -/
def round (v : Vars) (kt wt : W32) : Vars :=
  let t1 := v.h + bsig1 v.e + ch v.e v.f v.g + kt + wt
  let t2 := bsig0 v.a + maj v.a v.b v.c
  { a := t1 + t2, b := v.a, c := v.b, d := v.c, e := v.d + t1, f := v.e, g := v.f, h := v.g }

/-- The rounds for `t` from 0 on, one for each pair of a constant and a word. -/
def rounds (ks ws : List W32) : Vars := (ks.zip ws).foldl (fun v kw => round v kw.1 kw.2) initial

/-- `H0'` to `H7'` (R100): the initial values plus the working variables after the last round. -/
def compress (ws : List W32) : Vars :=
  let v := rounds k256 ws
  { a := initial.a + v.a, b := initial.b + v.b, c := initial.c + v.c, d := initial.d + v.d,
    e := initial.e + v.e, f := initial.f + v.f, g := initial.g + v.g, h := initial.h + v.h }

/-- `DIGEST[255:0] = H0' ++ H1' ++ ... ++ H7'` with `H0'` in bits 255:224 (R101). -/
def digestOf (v : Vars) : BitVec 256 := v.a ++ v.b ++ v.c ++ v.d ++ v.e ++ v.f ++ v.g ++ v.h

/-- `SHA256(M)` (R92). -/
def sha256 (m : List Byte) : BitVec 256 := digestOf (compress (schedule m))

end Sys2Proof.Sha256
end

