-- ==== Sys2Proof/Machine/Datapath.lean ====
section
/-! DEFINITION. The sub-blocks of 00_scope.md R2, one function each, and the signals between the engine and the hash unit
(43_sha256.md R91). -/

namespace Sys2Proof.Machine

/-- Byte `j` of the packed message (20_memory.md R39): `val(EBUF[8j..8j+7])`, `EBUF[8j]` its bit 7. -/
def packedByte (ebuf : BitArray 256) (j : Nat) : Byte := BitArray.tabulate 8 (fun i => ebuf.cell (8 * j + i))

/-- `entropy_bit_packer` (R78): bytes `0..nb(L)-1` packed, the others 0x00. -/
def entropyBitPacker (ebuf : BitArray 256) (L : Nat) : Vector Byte 32 :=
  Regs.tabulate 32 (fun j => if j < nb L then packedByte ebuf j else 0x00#8)

/-- The signal `sha_msg` (R91): `sha_msg[255:248] = MSG[0]`, ..., `sha_msg[7:0] = MSG[31]`. -/
def shaMsg (msg : Vector Byte 32) : BitVec 256 :=
  BitArray.tabulate 256 (fun i => (Regs.entry msg (i / 8) 0#8).getMsbD (i % 8))

/-- The signal `sha_nbytes` (R91). -/
def shaNbytes (L : Nat) : BitVec 6 := BitVec.ofNat 6 (nb L)

/-- `sha256_hash_unit` (R91, R92): "only the first `sha_nbytes` bytes are the message". The pulses `sha_start` and `sha_done`
only time it (R94; log entry 13). -/
def sha256HashUnit (bus : BitVec 256) (nbytes : BitVec 6) : BitVec 256 :=
  Sha256.sha256 ((List.range nbytes.toNat).map (fun j => bus.extractLsb' (248 - 8 * j) 8))

/-- `checksum_extractor` (R80): `zext_8(DIGEST[255 : 256-c])`. -/
def checksumExtractor (digest : BitVec 256) (c : Nat) : BitVec 8 := (digest >>> (256 - c)).setWidth 8

/-- `entropy_checksum_concatenator` (R81): the entropy, then the checksum first bit first, then zeros. -/
def entropyChecksumConcatenator (ebuf : BitArray 256) (cs : BitVec 8) (L : Nat) : BitArray 264 :=
  BitArray.tabulate 264 (fun i =>
    if i < L then ebuf.cell i
    else if i < L + cslen L then cs.getLsbD (cslen L - 1 - (i - L))
    else false)

/-- `bit_partitioner_11` (R82): `group(k) = FULL[11k .. 11k+10]`. Its value `val(group(k))` is the index (R41). -/
def bitPartitioner11 (full : BitArray 264) (k : Nat) : Index := BitArray.tabulate 11 (fun i => full.cell (11 * k + i))

/-- `wordlist_indexer` (41_wordlist.md R72): `wl_lookup(a) = WL[a]`. -/
def wordlistIndexer (wl : Memory) (a : Index) : Option Word := wl.read a.toNat

end Sys2Proof.Machine
end

