-- ==== Sys2Proof/Machine/Engine.lean ====
section
/-! DEFINITION. The engine steps of an encode run (42_encode.md R77 to R85). Each reads the state before the step. -/

namespace Sys2Proof.Machine

/-- An engine step's outcome. -/
abbrev Result := Host.Outcome State Fault Refusal

/-- VALIDATE (R77): all causes reported together and the run ended, or on to PACK. -/
def stepValidate (s : State) : Result :=
  if s.errorFlags = 0#3 then .next (s.toPhase .pack) else .next (s.raiseErrors s.errorFlags)

/-- PACK (R78). -/
def stepPack (s : State) : Result :=
  if inLenSet s.entLen then
    .next ((s.setMsg (entropyBitPacker s.ebuf s.entLen)).toPhase .hash)
  else .fault (.lengthFunctionUndefined s.entLen)

/-- HASH (R79). -/
def stepHash (s : State) : Result :=
  if inLenSet s.entLen then
    .next ((s.setDigest (sha256HashUnit (shaMsg s.msg) (shaNbytes s.entLen))).toPhase .csum)
  else .fault (.lengthFunctionUndefined s.entLen)

/-- CSUM (R80). -/
def stepCsum (s : State) : Result :=
  if inLenSet s.entLen then
    .next ((s.setChecksum (checksumExtractor s.digest (cslen s.entLen))).toPhase .concat)
  else .fault (.lengthFunctionUndefined s.entLen)

/-- CONCAT (R81). -/
def stepConcat (s : State) : Result :=
  if inLenSet s.entLen then
    .next ((s.setFull (entropyChecksumConcatenator s.ebuf s.cs s.entLen)).toPhase .index)
  else .fault (.lengthFunctionUndefined s.entLen)

/-- The choice at the end of an INDEX step (R83, R84): the run is complete, or the next group. -/
def State.nextGroup (s : State) : State :=
  if s.k.toNat + 1 = nw s.entLen then s.publish (nw s.entLen) else s.advanceK

/-- INDEX (R83). -/
def stepIndex (s : State) : Result :=
  if inLenSet s.entLen then
    if s.k.toNat < nw s.entLen then
      match wordlistIndexer s.wl (bitPartitioner11 s.full s.k.toNat) with
      | some w => .next (s.storeResult s.k.toNat (bitPartitioner11 s.full s.k.toNat) w).nextGroup
      | none => .fault (.wordlistCellUnspecified (bitPartitioner11 s.full s.k.toNat).toNat)
    else .fault (.groupUndefined s.k.toNat)
  else .fault (.lengthFunctionUndefined s.entLen)

/-- One engine step: the one `PHASE` names (R85). The engine is not enabled when `PHASE = IDLE` (00_scope.md R9): nothing
happens. -/
def engineStep (s : State) : Result :=
  match s.phase with
  | .idle => .next s
  | .validate => stepValidate s
  | .pack => stepPack s
  | .hash => stepHash s
  | .csum => stepCsum s
  | .concat => stepConcat s
  | .index => stepIndex s

end Sys2Proof.Machine
end

