-- ==== Sys2Proof/Machine/Fetch.lean ====
section
/-! DEFINITION. How a command word reaches the block: there is no program counter and no fetch (10_state.md R29); the host
presents words on the command port (30_encoding.md R55). -/

namespace Sys2Proof.Machine

/-- The state in which a presented word takes effect: the move is spent and `wdata` is sampled (R58). -/
def State.present (s : State) (rest : List HostMove) (w : Word) : State := (s.withHost rest).sampleWdata w

/-- The word put first among the coming moves, with side operand 0, and the block ready to accept it (log entry 16). Without
a word nothing changes. -/
def State.offer (s : State) (c : Option CmdWord) : State :=
  match c with
  | some c => (s.withHost (.hold c 0 :: s.host)).toPhase .idle
  | none => s

end Sys2Proof.Machine
end

