-- ==== Sys2Proof/Machine/Step.lean ====
section
/-! DEFINITION. One step of the block: the move of one agent (00_scope.md R9). -/

namespace Sys2Proof.Machine

/-- A word accepted (30_encoding.md R55): a legal one is executed by its row's rule, an illegal one only sets `ILL` (R61). -/
def accept (c : CmdWord) (s : State) : Host.Outcome State Fault Refusal :=
  match decode c with
  | .ok i => exec i s
  | .error _ => .next s.markIllegal

/-- One step. A reset move acts in every phase (R126). Otherwise an idle block accepts the word presented, or does nothing
if there is none (R125), and a busy block takes an engine step while the word presented is held off (R55, R129): a
held word stays, a word presented for this step only is gone. -/
def step (s : State) : Host.Outcome State Fault Refusal :=
  match s.host with
  | .reset :: rest => .next (s.withHost rest).resetEdge
  | .hold c d :: rest => if s.phase = .idle then accept c (s.present rest d) else engineStep s
  | .once c d :: rest => if s.phase = .idle then accept c (s.present rest d) else engineStep (s.withHost rest)
  | .quiet :: rest => engineStep (s.withHost rest)
  | [] => engineStep s

/-- The state with that word presented first. -/
def State.withFetchWord (s : State) (nbits w : Nat) : State := s.offer (tableWord nbits w)

end Sys2Proof.Machine
end

