-- ==== Sys2Proof/Machine/BigStep.lean ====
section
/-! DEFINITION. An encode run as one function of the entropy (42_encode.md R86), over lists of bits and independent of the
registers the engine uses. The step does not call it; claims compare the engine with it. -/

namespace Sys2Proof.Machine

/-- `E[0..L-1]`: the entropy delivered so far, first symbol first. -/
def State.entropyBits (s : State) : List Bool := (List.range s.storedLen).map s.ebuf.cell

/-- `M`: bytes `j = 0..L/8-1`, byte `j` being `val(E[8j..8j+7])` (R39, R86). -/
def packBits (E : List Bool) : List Byte :=
  (List.range (nb E.length)).map (fun j => BitVec.ofNat 8 (bitsVal ((E.drop (8 * j)).take 8)))

/-- `C[i] = bit (7-i) of D[0]`, `i = 0 .. L/32-1`, with `D[0]` the first byte of `SHA256(M)` (R86). -/
def checksumBits (E : List Bool) : List Bool :=
  (List.range (cslen E.length)).map
    (fun i => ((Sha256.sha256 (packBits E)).extractLsb' 248 8).getLsbD (7 - i))

/-- `F = E[0..L-1] ++ C[0..L/32-1]` (R86). -/
def fullBits (E : List Bool) : List Bool := E ++ checksumBits E

/-- `a_k = val(F[11k..11k+10])`, `k = 0 .. 3L/32-1` (R86). -/
def mnemonicIndices (E : List Bool) : List Nat :=
  (List.range (3 * E.length / 32)).map (fun k => bitsVal (((fullBits E).drop (11 * k)).take 11))

/-- The bit array `F'` of R89: the 11-bit big-endian forms of `MIDX[0..NWORDS-1]`, in order. -/
def State.resultBits (s : State) : List Bool :=
  (List.range s.nwords.toNat).flatMap
    (fun k => (List.range 11).map (BitArray.cell (Regs.entry s.midx k 0#11)))

/-- `L' = 32n/3` of R89, the entropy length that `n` words stand for. -/
def State.resultLen (s : State) : Nat := 32 * s.nwords.toNat / 3

end Sys2Proof.Machine
end

