-- ==== Sys2Proof/Machine/Ports.lean ====
section
/-! DEFINITION. The output ports, combinational functions of the state (10_state.md R31 to R33). The read-select inputs
`ebit_sel` and `res_sel` are arguments. Reading changes no state (20_memory.md R46). -/

namespace Sys2Proof.Machine

/-- `cmd_ready`: 1 if `PHASE = IDLE`. -/
def State.cmdReady (s : State) : Bool := decide (s.phase = .idle)

/-- `busy`: 1 if `PHASE != IDLE`. -/
def State.busy (s : State) : Bool := decide (s.phase ≠ .idle)

/-- `done`. -/
def State.doneQ (s : State) : Bool := s.done

/-- `err`. -/
def State.errQ (s : State) : BitVec 3 := s.err

/-- `errcode`. -/
def State.errcode (s : State) : BitVec 2 := errorCode s.err

/-- `ill`. -/
def State.illQ (s : State) : Bool := s.ill

/-- `ent_len`. -/
def State.entLenQ (s : State) : BitVec 9 := s.len

/-- `ent_badch`. -/
def State.entBadch (s : State) : Bool := s.badch

/-- `wl_count`. -/
def State.wlCount (s : State) : BitVec 12 := s.wlcnt

/-- `nwords`. -/
def State.nwordsQ (s : State) : BitVec 5 := s.nwords

/-- `ebit_q = EBUF[ebit_sel]` (R32). -/
def State.ebitQ (s : State) (ebitSel : BitVec 8) : Bool := s.ebuf.cell ebitSel.toNat

/-- `res_valid` (R33): 1 if `res_sel < NWORDS`. -/
def State.resValid (s : State) (resSel : BitVec 5) : Bool := decide (resSel.toNat < s.nwords.toNat)

/-- `res_idx` (R33): `MIDX[res_sel]`, 0 when not valid. -/
def State.resIdx (s : State) (resSel : BitVec 5) : Index :=
  if s.resValid resSel then Regs.entry s.midx resSel.toNat 0#11 else 0#11

/-- `res_word` (R33): `MWORD[res_sel]`, 0 when not valid. -/
def State.resWord (s : State) (resSel : BitVec 5) : Word :=
  if s.resValid resSel then Regs.entry s.mword resSel.toNat 0 else 0

end Sys2Proof.Machine
end

