-- ==== Sys2Proof/Safety.lean ====
section
/-! DEFINITION. The terms claims use: runs, what stays unchanged, the invariants of 10_state.md R35. -/

namespace Sys2Proof.Machine

/-- `n` steps, stopping at the first fault or refusal. -/
def run : Nat → State → Host.Outcome State Fault Refusal
  | 0, s => .next s
  | n + 1, s =>
    match step s with
    | .next t => run n t
    | .fault f => .fault f
    | .refused r => .refused r

/-- No reset move is among the coming moves. -/
def NoReset (s : State) : Prop := HostMove.reset ∉ s.host

/-- The next step is a reset edge (R126). -/
def Resets (s : State) : Prop := ∃ rest, s.host = .reset :: rest

/-- The next step accepts the word `c` (R55): the block is idle and the word is presented. -/
def AcceptsWord (s : State) (c : CmdWord) : Prop :=
  s.phase = .idle ∧ ∃ d rest, s.host = .hold c d :: rest ∨ s.host = .once c d :: rest

/-- The next step accepts the command `i`. -/
def Accepts (s : State) (i : Instr) : Prop := ∃ c, AcceptsWord s c ∧ decode c = .ok i

/-- The next step accepts an illegal word (R61). -/
def AcceptsIllegal (s : State) : Prop := ∃ c e, AcceptsWord s c ∧ decode c = .error e

/-- How many engine steps the run of the present inputs takes (R85): "a successful run has `5 + nw(L)` engine steps
(17, 20, 23, 26 or 29), a failing run 1". -/
def State.runSteps (s : State) : Nat := if s.errorFlags = 0#3 then 5 + nw s.entLen else 1

/-- The commands accepted one after the other (R49). -/
def execAll : List Instr → State → Host.Outcome State Fault Refusal
  | [], s => .next s
  | i :: is, s =>
    match exec i s with
    | .next t => execAll is t
    | .fault f => .fault f
    | .refused r => .refused r

/-- `WLAPP` accepted once for each entry, that entry on `wdata` (R58, R71). -/
def appendAll : List Word → State → Host.Outcome State Fault Refusal
  | [], s => .next s
  | w :: ws, s =>
    match exec .wlapp (s.sampleWdata w) with
    | .next t => appendAll ws t
    | .fault f => .fault f
    | .refused r => .refused r

/-- What R36 says of the state after reset, and of the ports. -/
def State.AfterReset (s : State) : Prop :=
  (s.phase = .idle ∧ s.len = 0#9 ∧ s.badch = false ∧ (∀ i < 256, s.ebuf.cell i = false) ∧ s.wlcnt = 0#12 ∧
    s.nwords = 0#5 ∧ s.done = false ∧ s.err = 0#3 ∧ s.ill = false) ∧
  (s.cmdReady = true ∧ s.busy = false ∧ s.doneQ = false ∧ s.errQ = 0#3 ∧ s.errcode = 0#2 ∧ s.illQ = false ∧
    s.entLenQ = 0#9 ∧ s.entBadch = false ∧ s.wlCount = 0#12 ∧ s.nwordsQ = 0#5 ∧
    (∀ sel, s.ebitQ sel = false) ∧
    (∀ sel, s.resValid sel = false ∧ s.resIdx sel = 0#11 ∧ s.resWord sel = 0))

/-! What a step leaves unchanged, by groups of 10_state.md R11. -/

/-- The entropy input state. -/
def SameEntropy (s t : State) : Prop := t.ebuf = s.ebuf ∧ t.len = s.len ∧ t.badch = s.badch

/-- Every cell of the wordlist memory reads as before, and the count is as before. -/
def SameWordlist (s t : State) : Prop := (∀ a, t.wl.read a = s.wl.read a) ∧ t.wlcnt = s.wlcnt

/-- The intermediate registers of a run. -/
def SameDatapath (s t : State) : Prop :=
  t.k = s.k ∧ t.msg = s.msg ∧ t.digest = s.digest ∧ t.cs = s.cs ∧ t.full = s.full

/-- The result buffer. -/
def SameResult (s t : State) : Prop := t.midx = s.midx ∧ t.mword = s.mword

/-- The status of the last finished run. -/
def SameStatus (s t : State) : Prop := t.nwords = s.nwords ∧ t.done = s.done ∧ t.err = s.err

/-- The model's own fields: the sampled operand, the coming moves, the count of resets. -/
def SameOutside (s t : State) : Prop := t.wdata = s.wdata ∧ t.host = s.host ∧ t.resets = s.resets

/-! Invariants. -/

/-- The phases after VALIDATE. -/
def Phase.transforming (p : Phase) : Prop := p ≠ .idle ∧ p ≠ .validate

/-- What holds in every reachable state: the clauses (a) to (f) of R35, that the wordlist memory is canonical and every
cell below `min(WLCNT, 2048)` was appended (R15, R72), and that a run past VALIDATE has valid inputs (R77). -/
structure State.Inv (s : State) : Prop where
  /-- The wordlist memory is in canonical form. -/
  wlCanonical : s.wl.wf = true
  /-- Every counted cell of `WL` holds an entry (R15). -/
  wlAppended : ∀ a < min s.wlcnt.toNat Config.wlSize, (s.wl.read a).isSome
  /-- (a) `EBUF[i] = 0` for every `i >= min(LEN, 256)`. -/
  entropyTail : ∀ i, s.storedLen ≤ i → s.ebuf.cell i = false
  /-- (b) `NWORDS` is 0 or the word count of a permitted length. -/
  wordCount : s.nwords.toNat ∈ [0, 12, 15, 18, 21, 24]
  /-- (c) a visible result belongs to a finished run without error. -/
  resultFinished : s.nwords ≠ 0#5 → s.done = true ∧ s.err = 0#3 ∧ s.phase = .idle
  /-- (d) an error belongs to a finished run without result. -/
  errorFinished : s.err ≠ 0#3 → s.done = true ∧ s.nwords = 0#5
  /-- (e) during a run nothing of a result is visible. -/
  runHidden : s.phase ≠ .idle → s.done = false ∧ s.err = 0#3 ∧ s.nwords = 0#5
  /-- (f) `K < nw(LEN) <= 24` in the INDEX phase. -/
  groupInRange : s.phase = .index → s.k.toNat < nw s.entLen ∧ nw s.entLen ≤ 24
  /-- A run past VALIDATE has inputs that passed its checks. -/
  inputsValid : s.phase.transforming → inLenSet s.entLen = true ∧ s.badch = false ∧ s.wlcnt.toNat = Config.wlSize

/-- The indices of the result buffer below `n` are those of the mnemonic of the entropy `E`. -/
def State.IndicesAre (s : State) (E : List Bool) (n : Nat) : Prop :=
  ∀ k < n, (Regs.entry s.midx k 0#11).toNat = (mnemonicIndices E).getD k 0

/-- What the registers of a run hold, phase by phase (R19 to R23), and what a visible result is: the mnemonic of some
entropy of a permitted length. -/
structure State.DataInv (s : State) : Prop where
  /-- `MSG` holds the packed entropy (R19). -/
  packed : s.phase = .hash → s.msg = entropyBitPacker s.ebuf s.entLen
  /-- `DIGEST` holds the digest of the packed entropy (R20). -/
  hashed : s.phase = .csum → s.digest = Sha256.sha256 (packBits s.entropyBits)
  /-- `CS` holds the checksum, right-aligned (R21). -/
  summed : s.phase = .concat →
    s.cs = checksumExtractor (Sha256.sha256 (packBits s.entropyBits)) (cslen s.entLen)
  /-- `FULL` holds the entropy followed by the checksum (R22). -/
  joined : s.phase = .index → ∀ i < flen s.entLen, s.full.cell i = (fullBits s.entropyBits).getD i false
  /-- The words produced so far are right (R23). -/
  produced : s.phase = .index → s.IndicesAre s.entropyBits s.k.toNat
  /-- The words are those the wordlist has at their indices (R23). -/
  looked : s.phase = .index → ∀ k < s.k.toNat,
    s.wl.read (Regs.entry s.midx k 0#11).toNat = some (Regs.entry s.mword k 0)
  /-- A visible result is the mnemonic of some entropy of a permitted length (R23, R24). -/
  published : s.nwords ≠ 0#5 → ∃ E : List Bool, inLenSet E.length = true ∧
    s.nwords.toNat = nw E.length ∧ s.IndicesAre E s.nwords.toNat

/-- The inputs of an encode run pass all three checks (R77). -/
def State.ValidInputs (s : State) : Prop :=
  inLenSet s.entLen = true ∧ s.badch = false ∧ s.wlcnt.toNat = Config.wlSize

/-- Two states agree on everything an encode run may depend on (R88): `LEN`, `BADCH`, `EBUF[0..min(LEN,256)-1]`, `WLCNT`
and, when `WLCNT = 2048`, `WL[0..2047]`. -/
def SameArguments (s t : State) : Prop :=
  t.len = s.len ∧ t.badch = s.badch ∧ (∀ i < s.storedLen, t.ebuf.cell i = s.ebuf.cell i) ∧
    t.wlcnt = s.wlcnt ∧
    (s.wlcnt.toNat = Config.wlSize → ∀ a < Config.wlSize, t.wl.read a = s.wl.read a)

end Sys2Proof.Machine
end

