-- ==== Sys2Proof/Certificates/Slice0/Obligations.lean ====
section
/-! DEFINITION. The statements for the provers, in the order of the spec's files: commands, decoding, the port, the engine
steps, whole runs, the hash function, the status registers, reset, invariants. -/

open Sys2Proof Sys2Proof.Machine

/-! ## The commands (files 40, 41, 42, 44) -/

/-- R66. `NOP` is the word 0x0000 and changes nothing; presented during a run it is not accepted. -/
def Obligations.NopChangesNothing : Prop :=
  decode 0x0000#16 = .ok .nop ∧ (∀ s : State, exec .nop s = .next s) ∧
  ∀ (s : State) (d : Word) (rest : List HostMove), s.host = .hold 0x0000#16 d :: rest → s.phase ≠ .idle →
    s.cmdReady = false ∧ step s = engineStep s

/-- R67. `CLR` is the word 0x1000; the entropy buffer, the status, the illegal flag and the word count become 0 and nothing
else changes. -/
def Obligations.ClrClearsEntropyAndStatus : Prop :=
  decode 0x1000#16 = .ok .clr ∧ ∀ s : State, ∃ t, exec .clr s = .next t ∧
    t.len = 0#9 ∧ t.badch = false ∧ (∀ i < 256, t.ebuf.cell i = false) ∧
    t.done = false ∧ t.err = 0#3 ∧ t.ill = false ∧ t.nwords = 0#5 ∧
    SameWordlist s t ∧ t.phase = s.phase ∧ SameDatapath s t ∧ SameResult s t ∧ SameOutside s t

/-- R68. `PUSH imm8` appends one character: a bit stored in the cell `LEN` if `LEN < 256`, `BADCH` set by a code other than
0x30 and 0x31, `LEN` counted up to 511, nothing else changed. -/
def Obligations.PushAppendsOneSymbol : Prop :=
  ∀ (imm8 : Byte) (s : State),
    decode (0x20#8 ++ imm8) = .ok (.push imm8) ∧ ∃ t, exec (.push imm8) s = .next t ∧
    (∀ c, s.pushCell = some c ↔ c = s.len.toNat ∧ s.len.toNat < 256) ∧
    (∀ c, s.pushCell = some c →
      t.ebuf.cell c = (if imm8 = 0x30#8 ∨ imm8 = 0x31#8 then imm8.getLsbD 0 else false)) ∧
    (∀ i, s.pushCell ≠ some i → t.ebuf.cell i = s.ebuf.cell i) ∧
    t.badch = (if imm8 = 0x30#8 ∨ imm8 = 0x31#8 then s.badch else true) ∧
    t.len.toNat = min (s.len.toNat + 1) 511 ∧
    SameWordlist s t ∧ t.phase = s.phase ∧ SameDatapath s t ∧ SameResult s t ∧ SameStatus s t ∧
    t.ill = s.ill ∧ SameOutside s t

/-- R75. `ENC` is the word 0x3000; its accepting step clears `DONE`, `ERR`, `NWORDS`, sets `PHASE` to VALIDATE, makes the block
busy and changes nothing else. -/
def Obligations.EncStartsRun : Prop :=
  decode 0x3000#16 = .ok .enc ∧ ∀ s : State, ∃ t, exec .enc s = .next t ∧
    t.done = false ∧ t.err = 0#3 ∧ t.nwords = 0#5 ∧ t.phase = .validate ∧
    t.busy = true ∧ t.cmdReady = false ∧
    SameEntropy s t ∧ SameWordlist s t ∧ SameDatapath s t ∧ SameResult s t ∧ t.ill = s.ill ∧ SameOutside s t

/-- R102. `INV` is the word 0x4000; the cells below `min(LEN, 256)` are complemented, the others kept (in a
state that meets the invariant they stay 0), nothing else changed. -/
def Obligations.InvComplementsStoredCells : Prop :=
  decode 0x4000#16 = .ok .inv ∧ ∀ s : State, ∃ t, exec .inv s = .next t ∧
    (∀ i < min s.len.toNat 256, t.ebuf.cell i = !s.ebuf.cell i) ∧
    (∀ i, min s.len.toNat 256 ≤ i → t.ebuf.cell i = s.ebuf.cell i) ∧
    (s.Inv → ∀ i, min s.len.toNat 256 ≤ i → t.ebuf.cell i = false) ∧
    t.len = s.len ∧ t.badch = s.badch ∧
    SameWordlist s t ∧ t.phase = s.phase ∧ SameDatapath s t ∧ SameResult s t ∧ SameStatus s t ∧
    t.ill = s.ill ∧ SameOutside s t

/-- R70. `WLCLR` is the word 0x5000; `WLCNT` becomes 0, every cell of `WL` keeps its contents, nothing else changes. -/
def Obligations.WlclrForgetsTheCount : Prop :=
  decode 0x5000#16 = .ok .wlclr ∧ ∀ s : State, ∃ t, exec .wlclr s = .next t ∧
    t.wlcnt = 0#12 ∧ (∀ a, t.wl.read a = s.wl.read a) ∧
    SameEntropy s t ∧ t.phase = s.phase ∧ SameDatapath s t ∧ SameResult s t ∧ SameStatus s t ∧
    t.ill = s.ill ∧ SameOutside s t

/-- R71. `WLAPP` is the word 0x6000; `wdata` is stored in the cell `WLCNT` if `WLCNT < 2048`, every other cell keeps its
contents, `WLCNT` is counted up to 4095, nothing else changes. -/
def Obligations.WlappAppendsOneEntry : Prop :=
  decode 0x6000#16 = .ok .wlapp ∧ ∀ s : State, ∃ t, exec .wlapp s = .next t ∧
    (∀ c, s.appendCell = some c ↔ c = s.wlcnt.toNat ∧ s.wlcnt.toNat < 2048) ∧
    (∀ c, s.appendCell = some c → t.wl.read c = some s.wdata) ∧
    (∀ a, s.appendCell ≠ some a → t.wl.read a = s.wl.read a) ∧
    t.wlcnt.toNat = min (s.wlcnt.toNat + 1) 4095 ∧
    SameEntropy s t ∧ t.phase = s.phase ∧ SameDatapath s t ∧ SameResult s t ∧ SameStatus s t ∧
    t.ill = s.ill ∧ SameOutside s t

/-- R69. The state after `clr` and then one `push` per character of a string; a string of valid characters that fits the
buffer is determined by the state. -/
def Obligations.DeliveredStringIsHeld : Prop :=
  ∀ (s : State) (cs : List Byte), ∃ t, execAll (.clr :: cs.map .push) s = .next t ∧
    t.len.toNat = min cs.length 511 ∧
    (t.badch = true ↔ ∃ c ∈ cs, c ≠ 0x30#8 ∧ c ≠ 0x31#8) ∧
    (∀ i < min cs.length 256, t.ebuf.cell i = decide (cs[i]? = some 0x31#8)) ∧
    (∀ i, min cs.length 256 ≤ i → t.ebuf.cell i = false) ∧
    (cs.length ≤ 256 → t.badch = false →
      t.entropyBits.map (fun b => if b then 0x31#8 else 0x30#8) = cs)

/-- R15, R16, R70, R71. After `WLCLR` and one `WLAPP` per entry of a list, cell `a` holds the `(a+1)`-th entry and `WLCNT` the
saturated count; the cells above keep their stale contents. -/
def Obligations.AppendedEntriesAreHeld : Prop :=
  ∀ (s u : State) (ws : List Word), exec .wlclr s = .next u → ∃ t, appendAll ws u = .next t ∧
    t.wlcnt.toNat = min ws.length 4095 ∧
    (∀ a < min ws.length 2048, t.wl.read a = ws[a]?) ∧
    (∀ a, min ws.length 2048 ≤ a → t.wl.read a = s.wl.read a)

/-- R103. Two `INV` commands restore every state element. -/
def Obligations.InvTwiceRestores : Prop :=
  ∀ s : State, ∃ t, exec .inv s = .next t ∧ exec .inv t = .next s

/-! ## Decoding and encoding (file 30) -/

/-- Decoding a well-formed instruction's word gives the instruction back, with every immediate, and a word that decodes to
an instruction is that instruction's word. -/
def Obligations.DecodeEncodeRoundTrip : Prop :=
  (∀ i : Instr, i.wellFormed = true → decode (encode i) = .ok i) ∧
  (∀ (c : CmdWord) (i : Instr), decode c = .ok i → encode i = c)

/-- R60. No word selects two rows of the opcode table. -/
def Obligations.NoWordSelectsTwoRows : Prop :=
  opcodeTable.Pairwise (fun r r' => ∀ c : CmdWord, ¬ (r.selects c = true ∧ r'.selects c = true))

/-- R61. A word is rejected exactly when its opcode is in 0x7..0xF, or bits 11:8 are not zero, or bits 7:0 are not zero on an
opcode of 0x0, 0x1, 0x3, 0x4, 0x5, 0x6; and a word that is rejected is not well-formed. -/
def Obligations.IllegalWordsAreTheseThreeKinds : Prop :=
  ∀ c : CmdWord,
    ((∃ e, decode c = .error e) ↔
      7 ≤ (c.extractLsb' 12 4).toNat ∨ c.extractLsb' 8 4 ≠ 0#4 ∨
        ((c.extractLsb' 12 4).toNat ∈ [0, 1, 3, 4, 5, 6] ∧ c.extractLsb' 0 8 ≠ 0#8)) ∧
    ((∃ e, decode c = .error e) ↔ c.wellFormed = false)

/-- The words of 95_test_vectors.md section 2.8, written out bit by bit. -/
def Obligations.SampleWordsDecode : Prop :=
  decode 0b0000000000000000#16 = .ok .nop ∧
  decode 0b0001000000000000#16 = .ok .clr ∧
  decode 0b0010000000110000#16 = .ok (.push 0x30#8) ∧
  decode 0b0010000000110001#16 = .ok (.push 0x31#8) ∧
  decode 0b0010000000000000#16 = .ok (.push 0x00#8) ∧
  decode 0b0010000011111111#16 = .ok (.push 0xFF#8) ∧
  decode 0b0011000000000000#16 = .ok .enc ∧
  decode 0b0100000000000000#16 = .ok .inv ∧
  decode 0b0101000000000000#16 = .ok .wlclr ∧
  decode 0b0110000000000000#16 = .ok .wlapp ∧
  decode 0b0000000000000001#16 = .error .nonzeroBits7to0 ∧
  decode 0b0010000100110000#16 = .error .nonzeroBits11to8 ∧
  decode 0b0111000000000000#16 = .error .reservedOpcode

/-! ## The command port (R55, R61, R125, R129) -/

/-- R55. A step of an idle block with a legal word presented is that command's meaning, in the state where the move is spent
and `wdata` sampled and nothing else is changed. -/
def Obligations.StepRunsTheDecodedCommand : Prop :=
  ∀ (s : State) (c : CmdWord) (d : Word) (rest : List HostMove) (i : Instr),
    s.phase = .idle → (s.host = .hold c d :: rest ∨ s.host = .once c d :: rest) → decode c = .ok i →
    step s = exec i { s with host := rest, wdata := d }

/-- R61 (with log entry 9: the spec advises a refusal, the model takes the effect the rule gives). An idle block accepts an
illegal word; `ILL` becomes 1 and no other element of the block's state changes. -/
def Obligations.IllegalWordOnlySetsIll : Prop :=
  ∀ (s : State) (c : CmdWord) (d : Word) (rest : List HostMove) (e : DecodeError),
    s.phase = .idle → (s.host = .hold c d :: rest ∨ s.host = .once c d :: rest) → decode c = .error e →
    step s = .next { s with host := rest, wdata := d, ill := true }

/-- R55, R129. During a run the command port changes nothing: an engine step answers the same whatever is presented, a held
command stays presented, and one presented for this step only is gone. -/
def Obligations.CommandsAreHeldOffDuringARun : Prop :=
  (∀ (s : State) (c : CmdWord) (d : Word) (rest : List HostMove), s.phase ≠ .idle →
    (s.host = .hold c d :: rest → step s = engineStep s) ∧
    (s.host = .once c d :: rest → step s = engineStep { s with host := rest })) ∧
  (∀ (s : State) (h : List HostMove) (d : Word),
    match engineStep s with
    | .next t => engineStep { s with host := h, wdata := d } = .next { t with host := h, wdata := d }
    | .fault f => engineStep { s with host := h, wdata := d } = .fault f
    | .refused r => engineStep { s with host := h, wdata := d } = .refused r)

/-- R125 (log entry 15). An idle block to which nothing is presented keeps all its state. -/
def Obligations.IdleBlockWaits : Prop :=
  ∀ s : State, s.phase = .idle →
    (s.host = [] → step s = .next s) ∧
    (∀ rest, s.host = .quiet :: rest → step s = .next { s with host := rest })

/-- A run starts only by accepting `ENC`: a step that leaves an idle block busy accepted that command, and the engine is then
at VALIDATE (R17, R55, R61). -/
def Obligations.OnlyEncLeavesIdle : Prop :=
  ∀ s t : State, step s = .next t → s.phase = .idle → t.phase ≠ .idle → Accepts s .enc ∧ t.phase = .validate

/-! ## The engine steps (file 42) -/

/-- R76. The length functions on the permitted lengths, with all divisions exact. -/
def Obligations.LengthFunctionTable : Prop :=
  (Config.lenSet.map (fun L => (L, nb L, cslen L, flen L, nw L)) =
    [(128, 16, 4, 132, 12), (160, 20, 5, 165, 15), (192, 24, 6, 198, 18), (224, 28, 7, 231, 21),
      (256, 32, 8, 264, 24)]) ∧
  ∀ L ∈ Config.lenSet, 8 * nb L = L ∧ 32 * cslen L = L ∧ flen L = L + cslen L ∧ 11 * nw L = flen L

/-- R77. The VALIDATE step: all causes that hold are reported together and the run ends, with `NWORDS` and every input and
intermediate register as before; without a cause the engine goes on to PACK. -/
def Obligations.ValidateReportsAllCauses : Prop :=
  ∀ s : State, s.phase = .validate → ∃ t, engineStep s = .next t ∧
    (let e0 := s.len.toNat ∉ [128, 160, 192, 224, 256]
     let e1 := s.badch = true
     let e2 := s.wlcnt.toNat ≠ 2048
     (e0 ∨ e1 ∨ e2 →
       ((t.err.getLsbD 0 = true ↔ e0) ∧ (t.err.getLsbD 1 = true ↔ e1) ∧ (t.err.getLsbD 2 = true ↔ e2)) ∧
       t.done = true ∧ t.phase = .idle) ∧
     (¬(e0 ∨ e1 ∨ e2) → t.phase = .pack ∧ t.err = s.err ∧ t.done = s.done)) ∧
    t.nwords = s.nwords ∧ SameEntropy s t ∧ SameWordlist s t ∧ SameDatapath s t ∧ SameResult s t ∧
    t.ill = s.ill ∧ SameOutside s t

/-- R78. The PACK step: bit 7 of byte `j` is `EBUF[8j]` and so on down to bit 0; the bytes at and above `nb(L)` are 0; the bytes
below are the big-endian form of the entropy read as a number. -/
def Obligations.PackIsBigEndianFixedWidth : Prop :=
  ∀ s : State, s.phase = .pack → s.len.toNat ∈ [128, 160, 192, 224, 256] →
    ∃ t, engineStep s = .next t ∧ t.phase = .hash ∧
    (∀ j < s.len.toNat / 8, ∀ i < 8, (Regs.entry t.msg j 0).getLsbD (7 - i) = s.ebuf.cell (8 * j + i)) ∧
    (∀ j, s.len.toNat / 8 ≤ j → j < 32 → Regs.entry t.msg j 0 = 0x00#8) ∧
    ((List.range (s.len.toNat / 8)).foldl (fun v j => 256 * v + (Regs.entry t.msg j 0).toNat) 0 =
      bitsVal ((List.range s.len.toNat).map s.ebuf.cell)) ∧
    SameEntropy s t ∧ SameWordlist s t ∧ SameResult s t ∧ SameStatus s t ∧
    t.k = s.k ∧ t.digest = s.digest ∧ t.cs = s.cs ∧ t.full = s.full ∧ t.ill = s.ill ∧ SameOutside s t

/-- R79. The HASH step: the digest of exactly the first `nb(L)` bytes of `MSG`, `MSG[0]` first; what the other bytes hold does
not matter. -/
def Obligations.HashCoversExactlyTheMessage : Prop :=
  ∀ s : State, s.phase = .hash → s.len.toNat ∈ [128, 160, 192, 224, 256] →
    ∃ t, engineStep s = .next t ∧ t.phase = .csum ∧
    t.digest = Sha256.sha256 (s.msg.toList.take (s.len.toNat / 8)) ∧
    SameEntropy s t ∧ SameWordlist s t ∧ SameResult s t ∧ SameStatus s t ∧
    t.k = s.k ∧ t.msg = s.msg ∧ t.cs = s.cs ∧ t.full = s.full ∧ t.ill = s.ill ∧ SameOutside s t

/-- R80. The CSUM step: the `c` most significant digest bits, right-aligned, zeros above; equivalently the first digest byte
shifted right by `8 - c`. -/
def Obligations.ChecksumIsTheLeadingDigestBits : Prop :=
  ∀ s : State, s.phase = .csum → s.len.toNat ∈ [128, 160, 192, 224, 256] →
    ∃ t, engineStep s = .next t ∧ t.phase = .concat ∧
    (∀ i < s.len.toNat / 32, t.cs.getLsbD (s.len.toNat / 32 - 1 - i) = s.digest.getLsbD (255 - i)) ∧
    (∀ i, s.len.toNat / 32 ≤ i → t.cs.getLsbD i = false) ∧
    t.cs = s.digest.extractLsb' 248 8 >>> (8 - s.len.toNat / 32) ∧
    SameEntropy s t ∧ SameWordlist s t ∧ SameResult s t ∧ SameStatus s t ∧
    t.k = s.k ∧ t.msg = s.msg ∧ t.digest = s.digest ∧ t.full = s.full ∧ t.ill = s.ill ∧ SameOutside s t

/-- R81. The CONCAT step: the entropy, then the checksum first bit first, then zeros; `K` becomes 0. -/
def Obligations.ConcatJoinsEntropyAndChecksum : Prop :=
  ∀ s : State, s.phase = .concat → s.len.toNat ∈ [128, 160, 192, 224, 256] →
    ∃ t, engineStep s = .next t ∧ t.phase = .index ∧ t.k = 0#5 ∧
    (∀ i < s.len.toNat, t.full.cell i = s.ebuf.cell i) ∧
    (∀ i < s.len.toNat / 32, t.full.cell (s.len.toNat + i) = s.cs.getLsbD (s.len.toNat / 32 - 1 - i)) ∧
    (∀ i, s.len.toNat + s.len.toNat / 32 ≤ i → t.full.cell i = false) ∧
    SameEntropy s t ∧ SameWordlist s t ∧ SameResult s t ∧ SameStatus s t ∧
    t.msg = s.msg ∧ t.digest = s.digest ∧ t.cs = s.cs ∧ t.ill = s.ill ∧ SameOutside s t

/-- R83 (with R82). The INDEX step: `a = val(FULL[11K..11K+10])`, `MIDX[K] <- a`, `MWORD[K] <- WL[a]`; the last group publishes the
result, any other one counts `K` up; every other cell of the result buffer and every other register is kept. -/
def Obligations.IndexStoresOneWord : Prop :=
  ∀ (s : State) (w : Word), s.phase = .index → s.len.toNat ∈ [128, 160, 192, 224, 256] →
    s.k.toNat < (s.len.toNat + s.len.toNat / 32) / 11 →
    (let a := bitsVal ((List.range 11).map (fun i => s.full.cell (11 * s.k.toNat + i)))
     let n := (s.len.toNat + s.len.toNat / 32) / 11
     s.wl.read a = some w →
     ∃ t, engineStep s = .next t ∧ a < 2048 ∧
       (Regs.entry t.midx s.k.toNat 0).toNat = a ∧ Regs.entry t.mword s.k.toNat 0 = w ∧
       (∀ j, j ≠ s.k.toNat → Regs.entry t.midx j 0 = Regs.entry s.midx j 0 ∧
         Regs.entry t.mword j 0 = Regs.entry s.mword j 0) ∧
       (s.k.toNat + 1 = n → t.nwords.toNat = n ∧ t.done = true ∧ t.phase = .idle ∧ t.k = s.k) ∧
       (s.k.toNat + 1 ≠ n → t.k.toNat = s.k.toNat + 1 ∧ t.phase = .index ∧ t.nwords = s.nwords ∧
         t.done = s.done) ∧
       SameEntropy s t ∧ SameWordlist s t ∧ t.err = s.err ∧ t.msg = s.msg ∧ t.digest = s.digest ∧
       t.cs = s.cs ∧ t.full = s.full ∧ t.ill = s.ill ∧ SameOutside s t)

/-- R85, R106. The phase order of a run, with its two choices: after VALIDATE, and after an INDEX step. -/
def Obligations.PhasesFollowTheFixedOrder : Prop :=
  ∀ s t : State, engineStep s = .next t → s.phase ≠ .idle →
    (s.phase = .validate ∧ (t.phase = .pack ↔ s.ValidInputs) ∧ (t.phase = .idle ↔ ¬s.ValidInputs)) ∨
    (s.phase = .pack ∧ t.phase = .hash) ∨ (s.phase = .hash ∧ t.phase = .csum) ∨
    (s.phase = .csum ∧ t.phase = .concat) ∨ (s.phase = .concat ∧ t.phase = .index ∧ t.k = 0#5) ∨
    (s.phase = .index ∧ s.k.toNat + 1 = nw s.entLen ∧ t.phase = .idle) ∨
    (s.phase = .index ∧ s.k.toNat + 1 < nw s.entLen ∧ t.phase = .index ∧ t.k.toNat = s.k.toNat + 1)

/-- R90. `ENC` and its engine steps never write `EBUF`, `LEN`, `BADCH`, `WL`, `WLCNT` or `ILL`. -/
def Obligations.EncodingNeverWritesItsInputs : Prop :=
  ∀ s t : State, (exec .enc s = .next t ∨ engineStep s = .next t) →
    t.ebuf = s.ebuf ∧ t.len = s.len ∧ t.badch = s.badch ∧ t.wl = s.wl ∧ t.wlcnt = s.wlcnt ∧ t.ill = s.ill

/-- When a step stops: exactly when no reset comes and an engine step would use a length function outside `LENSET`, a group
number outside the run, or a cell of `WL` that was never appended (the model's choice, log entries 7 and 12; no run
reaches such a state, `InvariantStatesNeverStop`). -/
def Obligations.StepStopsExactlyHere : Prop :=
  ∀ s : State, (¬ ∃ t, step s = .next t) ↔
    (¬Resets s ∧ s.phase.transforming ∧
      (inLenSet s.entLen = false ∨
        (s.phase = .index ∧ (nw s.entLen ≤ s.k.toNat ∨
          s.wl.read (bitsVal ((List.range 11).map (fun i => s.full.cell (11 * s.k.toNat + i)))) = none))))

/-! ## Whole runs (R84 to R90, R114, R115) -/

/-- R86, R85, R84. An accepted `ENC` on valid inputs with a loaded wordlist ends after `5 + nw(L)` engine steps with the
mnemonic of the entropy: the indices are those of `E ++ checksum(SHA256(pack(E)))`, the words are the wordlist's at those
indices, the inputs are unchanged. -/
def Obligations.EncodeRunGivesTheMnemonic : Prop :=
  ∀ s : State, Accepts s .enc → NoReset s → s.ValidInputs → (∀ a < 2048, (s.wl.read a).isSome) →
    ∃ t, run (1 + (5 + nw s.entLen)) s = .next t ∧
    t.phase = .idle ∧ t.done = true ∧ t.err = 0#3 ∧ t.nwords.toNat = 3 * s.entLen / 32 ∧
    (∀ k < 3 * s.entLen / 32,
      (Regs.entry t.midx k 0).toNat = (mnemonicIndices s.entropyBits).getD k 0 ∧
      s.wl.read ((mnemonicIndices s.entropyBits).getD k 0) = some (Regs.entry t.mword k 0)) ∧
    SameEntropy s t ∧ SameWordlist s t ∧ t.ill = s.ill

/-- R114 (and what R115 says of the state). An accepted `ENC` whose inputs fail a check ends after one engine step: `ERR` holds every cause, `DONE` is 1,
`NWORDS` is 0, no result entry is visible, and the inputs, the intermediate registers and the result buffer are as they
were. -/
def Obligations.FailedRunLeavesNothing : Prop :=
  ∀ s : State, Accepts s .enc → NoReset s → ¬s.ValidInputs →
    ∃ t, run 2 s = .next t ∧ t.phase = .idle ∧ t.cmdReady = true ∧ t.done = true ∧ t.nwords = 0#5 ∧
    t.err ≠ 0#3 ∧ t.err = s.errorFlags ∧
    (∀ sel, t.resValid sel = false ∧ t.resIdx sel = 0 ∧ t.resWord sel = 0) ∧
    SameEntropy s t ∧ SameWordlist s t ∧ SameDatapath s t ∧ SameResult s t ∧ t.ill = s.ill

/-- R88, R10. The result of a run is a function of `LEN`, `BADCH`, the stored entropy, `WLCNT` and (when it is 2048) the wordlist:
two runs from states that agree on these end alike, whatever the other registers held and whatever else is presented on
the command port. -/
def Obligations.RunDependsOnItsArgumentsOnly : Prop :=
  ∀ s s' t : State, Accepts s .enc → Accepts s' .enc → NoReset s → NoReset s' → SameArguments s s' →
    run (1 + s.runSteps) s = .next t →
    ∃ t', run (1 + s'.runSteps) s' = .next t' ∧ t.phase = .idle ∧ t'.phase = .idle ∧
    t'.done = t.done ∧ t'.err = t.err ∧ t'.nwords = t.nwords ∧
    (∀ k < t.nwords.toNat, Regs.entry t'.midx k 0 = Regs.entry t.midx k 0 ∧
      Regs.entry t'.mword k 0 = Regs.entry t.mword k 0)

/-- R85. Every run ends: from any state of a run that meets the invariant, with no reset coming, the block is idle with `DONE`
set after at most 29 engine steps, and at every earlier step it is busy and shows no word of a result (R24). -/
def Obligations.EveryRunEnds : Prop :=
  ∀ s : State, s.Inv → NoReset s → s.phase ≠ .idle →
    ∃ n t, 1 ≤ n ∧ n ≤ 29 ∧ run n s = .next t ∧ t.phase = .idle ∧ t.done = true ∧
    ∀ m < n, ∃ u, run m s = .next u ∧ u.phase ≠ .idle ∧ u.nwords = 0#5

/-- R89. In every state that meets the invariants, a visible result re-derives its own checksum: the first `32n/3` bits of the
concatenated indices hash to the remaining bits. -/
def Obligations.ResultRederivesItsChecksum : Prop :=
  ∀ s : State, s.Inv → s.DataInv → s.nwords ≠ 0#5 →
    s.resultBits.drop s.resultLen = checksumBits (s.resultBits.take s.resultLen)

/-! ## The hash unit (file 43) -/

/-- R95. The padded block of a message of `n <= 55` bytes, byte by byte, and its sixteen big-endian words. -/
def Obligations.PaddedBlockLayout : Prop :=
  ∀ m : List Byte, m.length ≤ 55 →
    (let B := fun j => (Sha256.paddedBlock m).getD j 0#8
     (Sha256.paddedBlock m).length = 64 ∧
     (∀ j < m.length, B j = m.getD j 0#8) ∧ B m.length = 0x80#8 ∧
     (∀ j, m.length < j → j ≤ 61 → B j = 0x00#8) ∧
     (B 62).toNat = (8 * m.length) / 256 ∧ (B 63).toNat = (8 * m.length) % 256 ∧
     ∀ t < 16, ((Sha256.schedule m).getD t 0#32).toNat =
       (B (4 * t)).toNat * 2 ^ 24 + (B (4 * t + 1)).toNat * 2 ^ 16 + (B (4 * t + 2)).toNat * 2 ^ 8 +
         (B (4 * t + 3)).toNat)

/-- R97. The message schedule has 64 words, and each one from the sixteenth on is the sum the rule gives. -/
def Obligations.ScheduleRecurrence : Prop :=
  ∀ m : List Byte,
    (let W := fun t => (Sha256.schedule m).getD t 0#32
     (Sha256.schedule m).length = 64 ∧
     ∀ t, 16 ≤ t → t < 64 →
       W t = Sha256.ssig1 (W (t - 2)) + W (t - 7) + Sha256.ssig0 (W (t - 15)) + W (t - 16))

/-- R100. The working variables before the first round are the initial values, one round computes `T1` and `T2` from the
values before it and shifts the others, and the digest words are the sums after round 63. -/
def Obligations.CompressionIsSixtyFourRounds : Prop :=
  ∀ ws : List Sha256.W32, ws.length = 64 →
    (let V := fun t => Sha256.rounds (Sha256.k256.take t) (ws.take t)
     V 0 = Sha256.initial ∧
     (∀ t < 64,
       (let v := V t
        let t1 := v.h + Sha256.bsig1 v.e + Sha256.ch v.e v.f v.g + Sha256.k256.getD t 0 + ws.getD t 0
        let t2 := Sha256.bsig0 v.a + Sha256.maj v.a v.b v.c
        V (t + 1) = ⟨t1 + t2, v.a, v.b, v.c, v.d + t1, v.e, v.f, v.g⟩)) ∧
     Sha256.compress ws =
       (let v := V 64
        let i := Sha256.initial
        ⟨i.a + v.a, i.b + v.b, i.c + v.c, i.d + v.d, i.e + v.e, i.f + v.f, i.g + v.g, i.h + v.h⟩))

/-- R96. The logical functions, bit by bit: a choice, a majority, and the sums of rotated and shifted words. -/
def Obligations.LogicalFunctionsBitByBit : Prop :=
  ∀ (x y z : Sha256.W32) (i : Nat), i < 32 →
    (let rot := fun r => x.getLsbD ((i + r) % 32)
     let shr := fun n => if i + n < 32 then x.getLsbD (i + n) else false
     (Sha256.ch x y z).getLsbD i = (if x.getLsbD i then y.getLsbD i else z.getLsbD i) ∧
     (Sha256.maj x y z).getLsbD i =
       decide (2 ≤ (x.getLsbD i).toNat + (y.getLsbD i).toNat + (z.getLsbD i).toNat) ∧
     (Sha256.bsig0 x).getLsbD i = ((rot 2).xor (rot 13)).xor (rot 22) ∧
     (Sha256.bsig1 x).getLsbD i = ((rot 6).xor (rot 11)).xor (rot 25) ∧
     (Sha256.ssig0 x).getLsbD i = ((rot 7).xor (rot 18)).xor (shr 3) ∧
     (Sha256.ssig1 x).getLsbD i = ((rot 17).xor (rot 19)).xor (shr 10))

/-- R101. The digest is the eight words after the last round, each big-endian, the first one in the most significant bits;
byte `D[n]` is bits `255-8n` down to `248-8n`. -/
def Obligations.DigestIsTheEightWords : Prop :=
  ∀ m : List Byte,
    (let v := Sha256.compress (Sha256.schedule m)
     let H := [v.a, v.b, v.c, v.d, v.e, v.f, v.g, v.h]
     let D := fun n => (Sha256.sha256 m).extractLsb' (248 - 8 * n) 8
     Sha256.sha256 m = v.a ++ v.b ++ v.c ++ v.d ++ v.e ++ v.f ++ v.g ++ v.h ∧
     (Sha256.sha256 m).extractLsb' 224 32 = v.a ∧
     ∀ i < 8, (D (4 * i)).toNat = (H.getD i 0).toNat / 2 ^ 24 ∧
       (D (4 * i + 1)).toNat = (H.getD i 0).toNat / 2 ^ 16 % 256 ∧
       (D (4 * i + 2)).toNat = (H.getD i 0).toNat / 2 ^ 8 % 256 ∧
       (D (4 * i + 3)).toNat = (H.getD i 0).toNat % 256)

/-- The check values of R101. -/
def Obligations.DigestCheckValues : Prop :=
  Sha256.sha256 (List.replicate 16 0x00#8) =
    0x374708FFF7719DD5979EC875D56CD2286F6D3CF7EC317A3B25632AAB28EC37BB#256 ∧
  Sha256.sha256 (List.replicate 20 0x00#8) =
    0xDE47C9B27EB8D300DBB5F2C353E632C393262CF06340C4FA7F1B40C4CBD36F90#256 ∧
  Sha256.sha256 (List.replicate 24 0x00#8) =
    0x9D908ECFB6B256DEF8B49A7C504E6C889C4B0E41FE6CE3E01863DD7B61A20AA0#256 ∧
  Sha256.sha256 (List.replicate 28 0x00#8) =
    0x3ADDFB141CD7C9C4C6543A82191A3707AC29C7A041217782E61D4D91C691AEE8#256 ∧
  Sha256.sha256 (List.replicate 32 0x00#8) =
    0x66687AADF862BD776C8FC18B8E9F8E20089714856EE233B3902A591D0D5F2925#256 ∧
  Sha256.sha256 (List.replicate 16 0xFF#8) =
    0x5AC6A5945F16500911219129984BA8B387A06F24FE383CE4E81A73294065461B#256 ∧
  Sha256.sha256 (List.replicate 32 0xFF#8) =
    0xAF9613760F72635FBDB44A5A0A63C39F12AF30F950A6EE5C971BE188E89C4051#256

/-! ## Ports and status registers (files 10 and 60) -/

/-- R31. The status output ports as functions of the state; `errcode` names the lowest set error flag. -/
def Obligations.StatusPorts : Prop :=
  ∀ s : State,
    (s.cmdReady = true ↔ s.phase = .idle) ∧ (s.busy = true ↔ s.phase ≠ .idle) ∧
    s.doneQ = s.done ∧ s.errQ = s.err ∧ s.illQ = s.ill ∧ s.entLenQ = s.len ∧ s.entBadch = s.badch ∧
    s.wlCount = s.wlcnt ∧ s.nwordsQ = s.nwords ∧
    (s.err = 0#3 → s.errcode = 0#2) ∧
    (s.err.getLsbD 0 = true → s.errcode = 1#2) ∧
    (s.err.getLsbD 0 = false → s.err.getLsbD 1 = true → s.errcode = 2#2) ∧
    (s.err.getLsbD 0 = false → s.err.getLsbD 1 = false → s.err.getLsbD 2 = true → s.errcode = 3#2)

/-- R32. The entropy read port shows the selected cell, in every phase; in a state that meets the invariant the cells at and
above `min(LEN, 256)` read 0. -/
def Obligations.EntropyReadPort : Prop :=
  ∀ (s : State) (sel : BitVec 8), s.ebitQ sel = s.ebuf.cell sel.toNat ∧
    (s.Inv → min s.len.toNat 256 ≤ sel.toNat → s.ebitQ sel = false)

/-- R33. The result read port: entries below `NWORDS` are shown, all others read as not valid and 0; in a state that meets
the invariant no selector from 24 to 31 is valid. -/
def Obligations.ResultReadPort : Prop :=
  ∀ (s : State) (sel : BitVec 5),
    (sel.toNat < s.nwords.toNat → s.resValid sel = true ∧
      (∀ h : sel.toNat < 24, s.resIdx sel = s.midx[sel.toNat] ∧ s.resWord sel = s.mword[sel.toNat])) ∧
    (s.nwords.toNat ≤ sel.toNat → s.resValid sel = false ∧ s.resIdx sel = 0 ∧ s.resWord sel = 0) ∧
    (s.Inv → 24 ≤ sel.toNat → s.resValid sel = false)

/-- R24. `NWORDS` in one step: 0 after reset, `CLR`, the acceptance of `ENC`; `nw(LEN)` after the last INDEX step of a run;
otherwise as before. In a state that meets the invariant it is 0 during a run and after a run that ended in error. -/
def Obligations.WordCountChangesOnlyHere : Prop :=
  ∀ s t : State, step s = .next t →
    (Resets s ∨ Accepts s .clr ∨ Accepts s .enc → t.nwords = 0#5) ∧
    (¬Resets s → s.phase = .index → s.k.toNat + 1 = nw s.entLen → t.nwords.toNat = nw s.entLen) ∧
    (¬Resets s → ¬Accepts s .clr → ¬Accepts s .enc → ¬(s.phase = .index ∧ s.k.toNat + 1 = nw s.entLen) →
      t.nwords = s.nwords) ∧
    (s.Inv → s.phase ≠ .idle ∨ s.err ≠ 0#3 → s.nwords = 0#5)

/-- R25. `DONE` in one step: 1 after the step that ends a run, 0 after reset, `CLR` and the acceptance of `ENC`; otherwise as
before. -/
def Obligations.DoneChangesOnlyHere : Prop :=
  ∀ s t : State, step s = .next t →
    (Resets s ∨ Accepts s .clr ∨ Accepts s .enc → t.done = false) ∧
    (¬Resets s → s.phase ≠ .idle → t.phase = .idle → t.done = true) ∧
    (¬Resets s → ¬Accepts s .clr → ¬Accepts s .enc → (s.phase = .idle ∨ t.phase ≠ .idle) → t.done = s.done)

/-- R26. `ERR` in one step: all three flags written by a failing VALIDATE step, all cleared by reset, `CLR` and the acceptance
of `ENC`; otherwise as before. In a state that meets the invariant a successful run leaves it 0. -/
def Obligations.ErrorFlagsChangeOnlyHere : Prop :=
  ∀ s t : State, step s = .next t →
    (Resets s ∨ Accepts s .clr ∨ Accepts s .enc → t.err = 0#3) ∧
    (¬Resets s → s.phase = .validate → ¬s.ValidInputs →
      (t.err.getLsbD 0 = true ↔ s.len.toNat ∉ [128, 160, 192, 224, 256]) ∧
      (t.err.getLsbD 1 = true ↔ s.badch = true) ∧ (t.err.getLsbD 2 = true ↔ s.wlcnt.toNat ≠ 2048)) ∧
    (¬Resets s → ¬Accepts s .clr → ¬Accepts s .enc → ¬(s.phase = .validate ∧ ¬s.ValidInputs) → t.err = s.err) ∧
    (s.Inv → ¬Resets s → s.phase = .index → t.phase = .idle → t.err = 0#3)

/-- R27. `ILL` in one step: 1 after an accepted illegal word, 0 after reset and `CLR`; otherwise as before. It does not affect
an encode run: an engine step with another value of it answers the same. -/
def Obligations.IllegalFlagChangesOnlyHere : Prop :=
  (∀ s t : State, step s = .next t →
    (AcceptsIllegal s → t.ill = true) ∧ (Resets s ∨ Accepts s .clr → t.ill = false) ∧
    (¬AcceptsIllegal s → ¬Resets s → ¬Accepts s .clr → t.ill = s.ill)) ∧
  (∀ (s : State) (b : Bool),
    match engineStep s with
    | .next t => engineStep { s with ill := b } = .next { t with ill := b }
    | .fault f => engineStep { s with ill := b } = .fault f
    | .refused r => engineStep { s with ill := b } = .refused r)

/-- R12, R13, R14. The entropy input state changes only by reset, `CLR`, `PUSH`, and (the cells of `EBUF` only) `INV`; `BADCH` is
cleared by reset and `CLR` only. -/
def Obligations.EntropyInputChangesOnlyHere : Prop :=
  ∀ s t : State, step s = .next t → ¬Resets s → ¬Accepts s .clr →
    (s.badch = true → t.badch = true) ∧
    ((∀ c, ¬Accepts s (.push c)) → t.len = s.len ∧ t.badch = s.badch ∧
      (¬Accepts s .inv → t.ebuf = s.ebuf))

/-- R74. `WL` and `WLCNT` change only by `WLAPP`, `WLCLR` and reset, and reset clears `WLCNT` only (that `WL` keeps its cells across a
reset: log entry 8); so they do not change during a run. -/
def Obligations.WordlistChangesOnlyHere : Prop :=
  ∀ s t : State, step s = .next t →
    (Resets s → t.wlcnt = 0#12 ∧ t.wl = s.wl) ∧
    (Accepts s .wlclr → t.wl = s.wl) ∧
    (¬Resets s → ¬Accepts s .wlapp → ¬Accepts s .wlclr → t.wl = s.wl ∧ t.wlcnt = s.wlcnt) ∧
    (¬Resets s → s.phase ≠ .idle → t.wl = s.wl ∧ t.wlcnt = s.wlcnt)

/-! ## The wordlist memory (files 20 and 41) -/

/-- R8, R37, R72. A whole-entry write is read back at its cell and nowhere else, keeps the canonical form, and a canonical
memory lists no cell outside 0..2047; memories that read alike are equal. -/
def Obligations.WordlistMemoryLaws : Prop :=
  ∀ (m : Memory), m.wf = true →
    (∀ a < 2048, ∀ w : Word, (m.write a w).wf = true ∧
      ∀ b, (m.write a w).read b = if b = a then some w else m.read b) ∧
    (∀ a, 2048 ≤ a → m.read a = none) ∧
    (∀ m' : Memory, m'.wf = true → (∀ a, m.read a = m'.read a) → m = m')

/-! ## Reset (R36, R126, R127) -/

/-- R36. The state after reset, and what the ports show then. -/
def Obligations.ResetStateIsAsSpecified : Prop := State.reset.AfterReset

/-- R126, R127. A reset edge leads to the reset state from every state, also in the middle of a run and whatever else is to
come on the command port, which is not accepted at that edge. -/
def Obligations.ResetEdgeFromAnyState : Prop :=
  ∀ (s : State) (rest : List HostMove), s.host = .reset :: rest →
    ∃ t, step s = .next t ∧ t.AfterReset ∧ t.host = rest

/-! ## Invariants (R35) -/

/-- R35. The state after reset meets the invariant. -/
def Obligations.InvariantAtReset : Prop := State.reset.Inv

/-- R35. Every step from a state that meets the invariant gives a state that meets it. -/
def Obligations.InvariantIsKept : Prop := ∀ s t : State, s.Inv → step s = .next t → t.Inv

/-- No step from a state that meets the invariant stops: no lookup of a cell that was never appended, no length function or
group out of range, no refusal (R72, R83: "the address cannot be out of range and every cell is loaded"). -/
def Obligations.InvariantStatesNeverStop : Prop := ∀ s : State, s.Inv → ∃ t, step s = .next t

/-- R19 to R23. The state after reset meets the invariant of the run's registers. -/
def Obligations.DataInvariantAtReset : Prop := State.reset.DataInv

/-- R19 to R23. Every step keeps what the run's registers hold, phase by phase, and that a visible result is the mnemonic of
an entropy of a permitted length. -/
def Obligations.DataInvariantIsKept : Prop :=
  ∀ s t : State, s.Inv → s.DataInv → step s = .next t → t.Inv ∧ t.DataInv
end

