-- ==== Sys2Proof/Laws/Bits.lean ====
section
/-! SUPPORT. What the bit-array and register-array operations of Machine/Bits.lean do, cell by cell. -/

namespace Sys2Proof

namespace BitArray

theorem cell_of_ge {n : Nat} (A : BitArray n) {i : Nat} (h : n ≤ i) : A.cell i = false := by
  simp [cell, BitVec.getMsbD_of_ge _ _ h]

@[simp] theorem cell_zero (n i : Nat) : cell (0#n) i = false := by
  simp [cell]

theorem cell_concat {n : Nat} (A : BitArray n) (b : Bool) (i : Nat) :
    cell (n := n + 1) (BitVec.concat A b) i = if i = n then b else A.cell i := by
  simp only [cell, BitVec.getMsbD_concat]
  by_cases h : i < n
  · simp [h, Nat.ne_of_lt h]
  · by_cases h' : i = n
    · simp [h']
    · have : n ≤ i := by omega
      simp [h, h', BitVec.getMsbD_of_ge _ _ this]

@[simp] theorem cell_tabulate (n : Nat) (f : Nat → Bool) (i : Nat) :
    (tabulate n f).cell i = (decide (i < n) && f i) := by
  induction n with
  | zero => simp [tabulate, cell]
  | succ n ih =>
    rw [tabulate, cell_concat, ih]
    by_cases h : i = n
    · simp [h]
    · by_cases h' : i < n
      · simp [h, h', Nat.lt_succ_of_lt h']
      · simp [h, h']
        omega

/-- Two bit arrays with equal cells are equal. -/
theorem ext_cells {n : Nat} {A B : BitArray n} (h : ∀ i < n, A.cell i = B.cell i) : A = B :=
  BitVec.eq_of_getMsbD_eq h

theorem cell_setCell {n : Nat} (A : BitArray n) (i j : Nat) (b : Bool) :
    (A.setCell i b).cell j = if j = i ∧ j < n then b else A.cell j := by
  by_cases h : j < n
  · by_cases h' : j = i
    · subst h'; simp [setCell, h]
    · simp [setCell, h, h']
  · simp [setCell, h, cell_of_ge A (Nat.le_of_not_lt h)]

theorem cell_flipBelow {n : Nat} (A : BitArray n) (m j : Nat) :
    (A.flipBelow m).cell j = if j < m ∧ j < n then !A.cell j else A.cell j := by
  by_cases h : j < n
  · by_cases h' : j < m <;> simp [flipBelow, h, h']
  · simp [flipBelow, h, cell_of_ge A (Nat.le_of_not_lt h)]

/-- Flipping the same cells twice restores the array. -/
@[simp] theorem flipBelow_flipBelow {n : Nat} (A : BitArray n) (m : Nat) :
    (A.flipBelow m).flipBelow m = A := by
  apply ext_cells
  intro i hi
  by_cases h : i < m <;> simp [cell_flipBelow, h, hi]

end BitArray

theorem bitsVal_append (xs : List Bool) (b : Bool) : bitsVal (xs ++ [b]) = 2 * bitsVal xs + b.toNat := by
  simp [bitsVal]

/-- `val` of a tabulated array is the value of its cells read as a big-endian number. -/
theorem BitArray.toNat_tabulate (n : Nat) (f : Nat → Bool) :
    (BitArray.tabulate n f).toNat = bitsVal ((List.range n).map f) := by
  induction n with
  | zero => simp [tabulate, bitsVal]
  | succ n ih =>
    rw [tabulate, BitVec.toNat_concat, ih, List.range_succ, List.map_append, List.map_singleton,
      bitsVal_append]
    omega

theorem bitsVal_lt (xs : List Bool) : bitsVal xs < 2 ^ xs.length := by
  induction xs using List.reverseRecOn with
  | nil => simp [bitsVal]
  | append_singleton xs b ih =>
    rw [bitsVal_append, List.length_append, List.length_singleton, pow_succ]
    have := Bool.toNat_le b
    omega

/-- `n` bytes of eight bits each, read as one big-endian number. -/
theorem foldl_bitsVal_bytes (f : Nat → Bool) (n : Nat) : (List.range n).foldl (fun v j => 256 * v + bitsVal ((List.range 8).map (fun i => f (8*j+i)))) 0 = bitsVal ((List.range (8*n)).map f) := by
  induction n with
  | zero => rfl
  | succ n ih =>
    rw [List.range_succ (n := n), List.foldl_append, ih, show 8*(n+1) = 8*n+8 by ring, List.range_add, List.map_append]
    simp [List.range_succ (n := 7), List.range_succ (n := 6), List.range_succ (n := 5), List.range_succ (n := 4), List.range_succ (n := 3), List.range_succ (n := 2), List.range_succ (n := 1), bitsVal]
    ring

/-- Cell `i` of an 8-bit array is its bit `7 - i`. -/
theorem BitArray.getLsbD_tabulate_byte (f : Nat → Bool) {i : Nat} (hi : i < 8) : (BitArray.tabulate 8 f).getLsbD (7 - i) = f i := by
  have e := BitArray.cell_tabulate 8 f i
  simp only [BitArray.cell, BitVec.getMsbD_eq_getLsbD, hi, decide_true, Bool.true_and] at e
  exact e

/-- A list cut into groups of eleven and put together again. -/
theorem flatMap_chunks (F : List Bool) (n : Nat) (h : 11 * n ≤ F.length) : (List.range n).flatMap (fun k => (F.drop (11*k)).take 11) = F.take (11*n) := by
  induction n with
  | zero => simp
  | succ n ih =>
    rw [List.range_succ, List.flatMap_append, ih (by omega)]
    simp
    rw [show 11 * (n+1) = 11*n+11 by ring, List.take_add]

/-- Lists of bits of one length with the same value are equal. -/
theorem bitsVal_inj {xs ys : List Bool} (hl : xs.length = ys.length) (h : bitsVal xs = bitsVal ys) : xs = ys := by
  induction xs using List.reverseRecOn generalizing ys with
  | nil => exact (List.length_eq_zero_iff.1 (by simpa using hl.symm)).symm
  | append_singleton xs b ih =>
    rcases List.eq_nil_or_concat ys with rfl | ⟨ys, c, rfl⟩
    · simp at hl
    · rw [List.concat_eq_append] at *
      rw [bitsVal_append, bitsVal_append] at h
      have hb : b = c := by cases b <;> cases c <;> simp at * <;> omega
      subst hb
      rw [ih (by simpa using hl) (by omega)]

/-- The cells of an array, read big-endian, give its value. -/
theorem bitsVal_cells (x : BitArray 11) : bitsVal ((List.range 11).map (BitArray.cell x)) = x.toNat := by
  have := BitArray.toNat_tabulate 11 (BitArray.cell x)
  rw [← this]
  congr 1
  apply BitArray.ext_cells
  intro i hi; simp [hi]

namespace Regs

@[simp] theorem entry_tabulate {α : Type} (n : Nat) (f : Nat → α) (i : Nat) (d : α) :
    entry (tabulate n f) i d = if i < n then f i else d := by
  by_cases h : i < n <;> simp [entry, tabulate, h]

theorem entry_setEntry {α : Type} {n : Nat} (v : Vector α n) (i j : Nat) (x d : α) :
    entry (setEntry v i x) j d = if j = i ∧ j < n then x else entry v j d := by
  by_cases h : j < n
  · by_cases h' : i = j
    · subst h'; simp [entry, setEntry, h]
    · simp [entry, setEntry, h, h', Ne.symm h']
  · simp [entry, h]

@[simp] theorem entry_replicate {α : Type} (n i : Nat) (x : α) :
    entry (Vector.replicate n x) i x = x := by
  simp [entry]

/-- Two register arrays with equal entries are equal. -/
theorem ext_entries {α : Type} {n : Nat} {v w : Vector α n} (d : α)
    (h : ∀ i < n, entry v i d = entry w i d) : v = w := by
  ext i hi
  simpa [entry, hi] using h i hi

end Regs

end Sys2Proof
end

