-- ==== Sys2Proof/Laws/Datapath.lean ====
section
/-! SUPPORT. The sub-blocks of Machine/Datapath.lean against the big-step function of Machine/BigStep.lean. -/

namespace Sys2Proof.Machine

theorem inLenSet_iff (L : Nat) :
    inLenSet L = true ↔ L = 128 ∨ L = 160 ∨ L = 192 ∨ L = 224 ∨ L = 256 := by
  simp [inLenSet, Config.lenSet]

theorem storedLen_of_inLenSet {s : State} (h : inLenSet s.entLen = true) : s.storedLen = s.entLen := by
  rw [inLenSet_iff] at h
  simp only [State.storedLen, Config.ebufCap]
  omega

@[simp] theorem length_entropyBits (s : State) : s.entropyBits.length = s.storedLen := by
  simp [State.entropyBits]

/-- What the length functions and the entropy of a run are read from. -/
theorem entLen_congr {s t : State} (h : t.len = s.len) : t.entLen = s.entLen := by
  simp only [State.entLen, h]

theorem storedLen_congr {s t : State} (h : t.len = s.len) : t.storedLen = s.storedLen := by
  simp only [State.storedLen, entLen_congr h]

theorem entropyBits_congr {s t : State} (he : t.ebuf = s.ebuf) (hl : t.len = s.len) :
    t.entropyBits = s.entropyBits := by
  simp only [State.entropyBits, storedLen_congr hl, he]

theorem IndicesAre_congr {s t : State} (h : t.midx = s.midx) (E : List Bool) (n : Nat) :
    t.IndicesAre E n ↔ s.IndicesAre E n := by
  simp only [State.IndicesAre, h]

theorem getD_entropyBits (s : State) {i : Nat} (h : i < s.storedLen) :
    s.entropyBits.getD i false = s.ebuf.cell i := by
  simp [State.entropyBits, h]

theorem getD_map_range {α : Type} (n i : Nat) (f : Nat → α) (d : α) (h : i < n) :
    ((List.range n).map f).getD i d = f i := by
  simp [h]

/-- A slice of `n` bits at `a` is the list of its bits. -/
theorem drop_take_eq_map (xs : List Bool) {a n : Nat} (h : a + n ≤ xs.length) :
    (xs.drop a).take n = (List.range n).map (fun i => xs.getD (a + i) false) := by
  apply List.ext_getElem
  · simp; omega
  · intro i h1 h2
    simp only [List.length_map, List.length_range] at h2
    have : a + i < xs.length := by omega
    simp [List.getElem_take, this]

/-- Byte `j` of the bus `sha_msg` is `MSG[j]`. -/
theorem shaMsg_byte (msg : Vector Byte 32) {j : Nat} (hj : j < 32) :
    (shaMsg msg).extractLsb' (248 - 8 * j) 8 = Regs.entry msg j 0#8 := by
  apply BitVec.eq_of_getMsbD_eq
  intro i hi
  have h1 : (shaMsg msg).getLsbD (248 - 8 * j + (7 - i)) = (shaMsg msg).getMsbD (8 * j + i) := by
    rw [BitVec.getMsbD_eq_getLsbD]
    have : 8 * j + i < 256 := by omega
    simp only [this, decide_true, Bool.true_and]
    congr 1
    omega
  rw [BitVec.getMsbD_eq_getLsbD, BitVec.getLsbD_extractLsb']
  have h2 : 8 - 1 - i = 7 - i := by omega
  have h3 : 7 - i < 8 := by omega
  rw [h2, h1]
  have h4 := BitArray.cell_tabulate 256 (fun i => (Regs.entry msg (i / 8) 0#8).getMsbD (i % 8)) (8 * j + i)
  simp only [BitArray.cell] at h4
  rw [shaMsg, h4]
  have h5 : (8 * j + i) / 8 = j := by omega
  have h6 : (8 * j + i) % 8 = i := by omega
  have h7 : 8 * j + i < 256 := by omega
  simp [hi, h3, h5, h6, h7]

/-- The hash unit hashes the first `nb(L)` bytes of `MSG`, in order. -/
theorem sha256HashUnit_shaMsg (msg : Vector Byte 32) {L : Nat} (h : inLenSet L = true) :
    sha256HashUnit (shaMsg msg) (shaNbytes L)
      = Sha256.sha256 ((List.range (nb L)).map (fun j => Regs.entry msg j 0#8)) := by
  have hb : nb L ≤ 32 := by rw [inLenSet_iff] at h; simp only [nb]; omega
  have hn : (shaNbytes L).toNat = nb L := by
    simp only [shaNbytes, BitVec.toNat_ofNat]
    exact Nat.mod_eq_of_lt (by omega)
  rw [sha256HashUnit, hn]
  congr 1
  apply List.map_congr_left
  intro j hj
  exact shaMsg_byte msg (by rw [List.mem_range] at hj; omega)

/-- The packed bytes of the buffer are those of its list of bits. -/
theorem packBits_entropyBits {s : State} (h : inLenSet s.entLen = true) :
    packBits s.entropyBits = (List.range (nb s.entLen)).map (packedByte s.ebuf) := by
  have hl := storedLen_of_inLenSet h
  have hd : 8 * nb s.entLen = s.entLen := by rw [inLenSet_iff] at h; simp only [nb]; omega
  simp only [packBits, length_entropyBits, hl]
  apply List.map_congr_left
  intro j hj
  rw [List.mem_range] at hj
  rw [drop_take_eq_map _ (by simp only [length_entropyBits]; omega)]
  apply BitVec.eq_of_toNat_eq
  rw [packedByte, BitArray.toNat_tabulate, BitVec.toNat_ofNat]
  have : (List.range 8).map (fun i => s.entropyBits.getD (8 * j + i) false)
      = (List.range 8).map (fun i => s.ebuf.cell (8 * j + i)) := by
    apply List.map_congr_left
    intro i hi
    rw [List.mem_range] at hi
    exact getD_entropyBits s (by omega)
  rw [this]
  apply Nat.mod_eq_of_lt
  simpa using bitsVal_lt ((List.range 8).map (fun i => s.ebuf.cell (8 * j + i)))

/-- PACK then HASH give the digest of the packed entropy. -/
theorem hash_of_packed {s : State} (h : inLenSet s.entLen = true) :
    sha256HashUnit (shaMsg (entropyBitPacker s.ebuf s.entLen)) (shaNbytes s.entLen)
      = Sha256.sha256 (packBits s.entropyBits) := by
  have hb : nb s.entLen ≤ 32 := by rw [inLenSet_iff] at h; simp only [nb]; omega
  rw [sha256HashUnit_shaMsg _ h, packBits_entropyBits h]
  congr 1
  apply List.map_congr_left
  intro j hj
  rw [List.mem_range] at hj
  have : j < 32 := by omega
  simp [entropyBitPacker, this, hj]

/-- Bit `i` of the checksum register: the checksum bits right-aligned, zeros above. -/
theorem getLsbD_checksumExtractor (d : BitVec 256) {c : Nat} (hc : c ≤ 8) (i : Nat) :
    (checksumExtractor d c).getLsbD i = (decide (i < c) && d.getMsbD (c - 1 - i)) := by
  simp only [checksumExtractor, BitVec.getLsbD_setWidth, BitVec.getLsbD_ushiftRight,
    BitVec.getMsbD_eq_getLsbD]
  by_cases hi : i < c
  · have h1 : i < 8 := by omega
    have h2 : c - 1 - i < 256 := by omega
    have h3 : 256 - 1 - (c - 1 - i) = 256 - c + i := by omega
    simp [hi, h1, h2, h3]
  · have : 256 ≤ 256 - c + i := by omega
    simp [hi, this]

@[simp] theorem length_checksumBits (E : List Bool) : (checksumBits E).length = cslen E.length := by
  simp [checksumBits]

/-- Checksum bit `i` is digest bit `i`, most significant first. -/
theorem getD_checksumBits (E : List Bool) {i : Nat} (hi : i < cslen E.length) (hc : cslen E.length ≤ 8) :
    (checksumBits E).getD i false = (Sha256.sha256 (packBits E)).getMsbD i := by
  rw [checksumBits, getD_map_range _ _ _ _ hi, BitVec.getLsbD_extractLsb', BitVec.getMsbD_eq_getLsbD]
  have h1 : 7 - i < 8 := by omega
  have h2 : i < 256 := by omega
  have h3 : 248 + (7 - i) = 256 - 1 - i := by omega
  simp [h1, h2, h3]

@[simp] theorem length_fullBits (E : List Bool) : (fullBits E).length = flen E.length := by
  simp [fullBits, flen, cslen]

/-- CONCAT after CSUM puts the entropy and its checksum into `FULL`. -/
theorem cell_concatenated {s : State} (h : inLenSet s.entLen = true) {i : Nat} (hi : i < flen s.entLen) :
    (entropyChecksumConcatenator s.ebuf
      (checksumExtractor (Sha256.sha256 (packBits s.entropyBits)) (cslen s.entLen)) s.entLen).cell i
      = (fullBits s.entropyBits).getD i false := by
  have hl := storedLen_of_inLenSet h
  have hc : cslen s.entLen ≤ 8 := by rw [inLenSet_iff] at h; simp only [cslen]; omega
  have hf : flen s.entLen = s.entLen + cslen s.entLen := rfl
  have hb : flen s.entLen ≤ 264 := by rw [inLenSet_iff] at h; simp only [flen]; omega
  have h264 : i < 264 := by omega
  rw [entropyChecksumConcatenator, BitArray.cell_tabulate, fullBits]
  by_cases h1 : i < s.entLen
  · have h2 : i < s.entropyBits.length := by simp [hl, h1]
    rw [List.getD_append _ _ _ _ h2, getD_entropyBits s (by omega)]
    simp [h264, h1]
  · have h2 : s.entropyBits.length ≤ i := by simp only [length_entropyBits, hl]; omega
    have h3 : i < s.entLen + cslen s.entLen := by omega
    have h4 : i - s.entLen < cslen s.entLen := by omega
    rw [List.getD_append_right _ _ _ _ h2, length_entropyBits, hl,
      getD_checksumBits _ (by rw [length_entropyBits, hl]; exact h4) (by rw [length_entropyBits, hl]; exact hc)]
    have h5 : cslen s.entLen - 1 - (i - s.entLen) < cslen s.entLen := by omega
    have h6 : cslen s.entLen - 1 - (cslen s.entLen - 1 - (i - s.entLen)) = i - s.entLen := by omega
    simp [h264, h1, h3, getLsbD_checksumExtractor _ hc, h5, h6]

theorem nw_eq {L : Nat} (h : inLenSet L = true) : nw L = 3 * L / 32 ∧ 11 * nw L = flen L := by
  rw [inLenSet_iff] at h
  rcases h with h | h | h | h | h <;> subst h <;> simp [nw, flen]

theorem nw_le {L : Nat} (h : inLenSet L = true) : 12 ≤ nw L ∧ nw L ≤ 24 := by
  rw [inLenSet_iff] at h
  rcases h with h | h | h | h | h <;> subst h <;> simp [nw, flen]

/-- `nw(L)` fits the register `NWORDS`. -/
theorem toNat_ofNat_nw {L : Nat} (hl : inLenSet L = true) : (BitVec.ofNat 5 (nw L)).toNat = nw L := by
  have := nw_le hl
  rw [BitVec.toNat_ofNat]; exact Nat.mod_eq_of_lt (by omega)

/-- The word counts of the permitted lengths (10_state.md R24). -/
theorem nw_mem {L : Nat} (hl : inLenSet L = true) : nw L ∈ [0, 12, 15, 18, 21, 24] := by
  rw [inLenSet_iff] at hl
  rcases hl with h | h | h | h | h <;> subst h <;> simp [nw, flen]

/-- Index `k` is the number its eleven cells of `FULL` spell (42_encode.md R82). -/
theorem toNat_group_raw (full : BitArray 264) (k : Nat) : (bitPartitioner11 full k).toNat = bitsVal ((List.range 11).map (fun i => full.cell (11 * k + i))) := by
  rw [bitPartitioner11, BitArray.toNat_tabulate]

theorem length_mnemonicIndices {E : List Bool} (h : inLenSet E.length = true) :
    (mnemonicIndices E).length = nw E.length := by
  simp [mnemonicIndices, (nw_eq h).1]

/-- Group `k` of `FULL` is index `k` of the mnemonic. -/
theorem toNat_group {full : BitArray 264} {E : List Bool} (h : inLenSet E.length = true)
    (hf : ∀ i < flen E.length, full.cell i = (fullBits E).getD i false) {k : Nat} (hk : k < nw E.length) :
    (bitPartitioner11 full k).toNat = (mnemonicIndices E).getD k 0 := by
  obtain ⟨h1, h2⟩ := nw_eq h
  rw [mnemonicIndices, getD_map_range _ _ _ _ (by omega), bitPartitioner11, BitArray.toNat_tabulate,
    drop_take_eq_map _ (by rw [length_fullBits]; omega)]
  congr 1
  apply List.map_congr_left
  intro i hi
  rw [List.mem_range] at hi
  exact hf _ (by omega)

end Sys2Proof.Machine
end

