-- ==== Sys2Proof/Laws/Decode.lean ====
section
/-! SUPPORT. The decoder as a case distinction over whole words, and the fields of a word as numbers. -/

namespace Sys2Proof

/-- A high part and a byte side by side, as numbers. -/
theorem toNat_append_byte {n : Nat} (a : BitVec n) (b : BitVec 8) : (a ++ b).toNat = a.toNat * 256 + b.toNat := by
  rw [BitVec.toNat_append, ← Nat.shiftLeft_add_eq_or_of_lt b.isLt, Nat.shiftLeft_eq]

theorem mask_high (c : CmdWord) : c &&& 0xFF00#16 = (c >>> 8) <<< 8 := by
  apply BitVec.eq_of_getLsbD_eq
  intro i hi
  interval_cases i <;> simp

/-- The mask of the format I keeps bits 15:8. -/
theorem toNat_mask_high (c : CmdWord) : (c &&& 0xFF00#16).toNat = c.toNat / 256 * 256 := by
  have := c.isLt
  rw [mask_high, BitVec.toNat_shiftLeft, BitVec.toNat_ushiftRight, Nat.shiftRight_eq_div_pow, Nat.shiftLeft_eq]
  omega

theorem and_full (c : CmdWord) : c &&& 0xFFFF#16 = c := BitVec.and_allOnes

theorem toNat_low (c : CmdWord) : c.low.toNat = c.toNat % 256 := by
  simp [CmdWord.low]

/-- The row of `PUSH` selects the words whose upper byte is 0x20 (30_encoding.md R59). -/
theorem push_selects (c : CmdWord) : c &&& 0xFF00#16 = 0x2000#16 ↔ c = 0x20#8 ++ c.low := by
  have h1 := toNat_mask_high c
  have h2 := toNat_low c
  have h3 := toNat_append_byte 0x20#8 c.low
  have := c.isLt
  constructor
  · intro h
    rw [h] at h1
    apply BitVec.eq_of_toNat_eq
    simp at h1 h3 ⊢
    omega
  · intro h
    apply BitVec.eq_of_toNat_eq
    rw [h1, congrArg BitVec.toNat h, h3, h2]
    simp; omega

/-- The decoder as a table of whole words. -/
theorem decode_eq (c : CmdWord) : decode c =
    if c = 0x0000#16 then .ok .nop else if c = 0x1000#16 then .ok .clr
    else if c = 0x20#8 ++ c.low then .ok (.push c.low) else if c = 0x3000#16 then .ok .enc
    else if c = 0x4000#16 then .ok .inv else if c = 0x5000#16 then .ok .wlclr
    else if c = 0x6000#16 then .ok .wlapp else .error (illegalReason c) := by
  simp only [decode, opcodeTable, List.find?, OpcodeRow.selects, and_full, beq_eq_decide, push_selects]
  by_cases h0 : c = 0x0000#16
  · simp [h0]
  by_cases h1 : c = 0x1000#16
  · simp [h1]
  by_cases h2 : c = 0x20#8 ++ c.low
  · have e : decide (c = 0x20#8 ++ c.low) = true := decide_eq_true h2
    simp only [h0, h1, if_false, if_pos h2, e, decide_false]
  have e : decide (c = 0x20#8 ++ c.low) = false := decide_eq_false h2
  by_cases h3 : c = 0x3000#16
  · subst h3; decide
  by_cases h4 : c = 0x4000#16
  · subst h4; decide
  by_cases h5 : c = 0x5000#16
  · subst h5; decide
  by_cases h6 : c = 0x6000#16
  · subst h6; decide
  simp only [h0, h1, if_false, if_neg h2, e, decide_false, h3, h4, h5, h6]

/-- The `opcode` field as a number. -/
theorem toNat_opcode (c : CmdWord) : (c.extractLsb' 12 4).toNat = c.toNat / 4096 := by
  have := c.isLt; simp [Nat.shiftRight_eq_div_pow]; omega
/-- Bits 11:8 as a number. -/
theorem toNat_zeroField (c : CmdWord) : (c.extractLsb' 8 4).toNat = c.toNat / 256 % 16 := by
  simp [Nat.shiftRight_eq_div_pow]

end Sys2Proof
end

