-- ==== Sys2Proof/Laws/State.lean ====
section
/-! SUPPORT. One lemma per field per named update of Machine/Ops.lean, so that no proof unfolds an update.
Each is true by rfl once the state is taken apart. It is not stated with a bare rfl, which would let simp use it by definitional
unfolding: the kernel would then compare whole states, with them a digest with a register, and run SHA-256 on variables. -/

namespace Sys2Proof.Machine

variable (s : State)

@[simp] theorem State.toPhase_ebuf (p : Phase) : (s.toPhase p).ebuf = s.ebuf := by cases s; rfl
@[simp] theorem State.toPhase_len (p : Phase) : (s.toPhase p).len = s.len := by cases s; rfl
@[simp] theorem State.toPhase_badch (p : Phase) : (s.toPhase p).badch = s.badch := by cases s; rfl
@[simp] theorem State.toPhase_wl (p : Phase) : (s.toPhase p).wl = s.wl := by cases s; rfl
@[simp] theorem State.toPhase_wlcnt (p : Phase) : (s.toPhase p).wlcnt = s.wlcnt := by cases s; rfl
@[simp] theorem State.toPhase_phase (p : Phase) : (s.toPhase p).phase = p := by cases s; rfl
@[simp] theorem State.toPhase_k (p : Phase) : (s.toPhase p).k = s.k := by cases s; rfl
@[simp] theorem State.toPhase_msg (p : Phase) : (s.toPhase p).msg = s.msg := by cases s; rfl
@[simp] theorem State.toPhase_digest (p : Phase) : (s.toPhase p).digest = s.digest := by cases s; rfl
@[simp] theorem State.toPhase_cs (p : Phase) : (s.toPhase p).cs = s.cs := by cases s; rfl
@[simp] theorem State.toPhase_full (p : Phase) : (s.toPhase p).full = s.full := by cases s; rfl
@[simp] theorem State.toPhase_midx (p : Phase) : (s.toPhase p).midx = s.midx := by cases s; rfl
@[simp] theorem State.toPhase_mword (p : Phase) : (s.toPhase p).mword = s.mword := by cases s; rfl
@[simp] theorem State.toPhase_nwords (p : Phase) : (s.toPhase p).nwords = s.nwords := by cases s; rfl
@[simp] theorem State.toPhase_done (p : Phase) : (s.toPhase p).done = s.done := by cases s; rfl
@[simp] theorem State.toPhase_err (p : Phase) : (s.toPhase p).err = s.err := by cases s; rfl
@[simp] theorem State.toPhase_ill (p : Phase) : (s.toPhase p).ill = s.ill := by cases s; rfl
@[simp] theorem State.toPhase_wdata (p : Phase) : (s.toPhase p).wdata = s.wdata := by cases s; rfl
@[simp] theorem State.toPhase_host (p : Phase) : (s.toPhase p).host = s.host := by cases s; rfl
@[simp] theorem State.toPhase_resets (p : Phase) : (s.toPhase p).resets = s.resets := by cases s; rfl

@[simp] theorem State.clearEntropy_ebuf : s.clearEntropy.ebuf = 0#256 := by cases s; rfl
@[simp] theorem State.clearEntropy_len : s.clearEntropy.len = 0#9 := by cases s; rfl
@[simp] theorem State.clearEntropy_badch : s.clearEntropy.badch = false := by cases s; rfl
@[simp] theorem State.clearEntropy_wl : s.clearEntropy.wl = s.wl := by cases s; rfl
@[simp] theorem State.clearEntropy_wlcnt : s.clearEntropy.wlcnt = s.wlcnt := by cases s; rfl
@[simp] theorem State.clearEntropy_phase : s.clearEntropy.phase = s.phase := by cases s; rfl
@[simp] theorem State.clearEntropy_k : s.clearEntropy.k = s.k := by cases s; rfl
@[simp] theorem State.clearEntropy_msg : s.clearEntropy.msg = s.msg := by cases s; rfl
@[simp] theorem State.clearEntropy_digest : s.clearEntropy.digest = s.digest := by cases s; rfl
@[simp] theorem State.clearEntropy_cs : s.clearEntropy.cs = s.cs := by cases s; rfl
@[simp] theorem State.clearEntropy_full : s.clearEntropy.full = s.full := by cases s; rfl
@[simp] theorem State.clearEntropy_midx : s.clearEntropy.midx = s.midx := by cases s; rfl
@[simp] theorem State.clearEntropy_mword : s.clearEntropy.mword = s.mword := by cases s; rfl
@[simp] theorem State.clearEntropy_nwords : s.clearEntropy.nwords = s.nwords := by cases s; rfl
@[simp] theorem State.clearEntropy_done : s.clearEntropy.done = s.done := by cases s; rfl
@[simp] theorem State.clearEntropy_err : s.clearEntropy.err = s.err := by cases s; rfl
@[simp] theorem State.clearEntropy_ill : s.clearEntropy.ill = s.ill := by cases s; rfl
@[simp] theorem State.clearEntropy_wdata : s.clearEntropy.wdata = s.wdata := by cases s; rfl
@[simp] theorem State.clearEntropy_host : s.clearEntropy.host = s.host := by cases s; rfl
@[simp] theorem State.clearEntropy_resets : s.clearEntropy.resets = s.resets := by cases s; rfl

@[simp] theorem State.clearStatus_ebuf : s.clearStatus.ebuf = s.ebuf := by cases s; rfl
@[simp] theorem State.clearStatus_len : s.clearStatus.len = s.len := by cases s; rfl
@[simp] theorem State.clearStatus_badch : s.clearStatus.badch = s.badch := by cases s; rfl
@[simp] theorem State.clearStatus_wl : s.clearStatus.wl = s.wl := by cases s; rfl
@[simp] theorem State.clearStatus_wlcnt : s.clearStatus.wlcnt = s.wlcnt := by cases s; rfl
@[simp] theorem State.clearStatus_phase : s.clearStatus.phase = s.phase := by cases s; rfl
@[simp] theorem State.clearStatus_k : s.clearStatus.k = s.k := by cases s; rfl
@[simp] theorem State.clearStatus_msg : s.clearStatus.msg = s.msg := by cases s; rfl
@[simp] theorem State.clearStatus_digest : s.clearStatus.digest = s.digest := by cases s; rfl
@[simp] theorem State.clearStatus_cs : s.clearStatus.cs = s.cs := by cases s; rfl
@[simp] theorem State.clearStatus_full : s.clearStatus.full = s.full := by cases s; rfl
@[simp] theorem State.clearStatus_midx : s.clearStatus.midx = s.midx := by cases s; rfl
@[simp] theorem State.clearStatus_mword : s.clearStatus.mword = s.mword := by cases s; rfl
@[simp] theorem State.clearStatus_nwords : s.clearStatus.nwords = 0#5 := by cases s; rfl
@[simp] theorem State.clearStatus_done : s.clearStatus.done = false := by cases s; rfl
@[simp] theorem State.clearStatus_err : s.clearStatus.err = 0#3 := by cases s; rfl
@[simp] theorem State.clearStatus_ill : s.clearStatus.ill = s.ill := by cases s; rfl
@[simp] theorem State.clearStatus_wdata : s.clearStatus.wdata = s.wdata := by cases s; rfl
@[simp] theorem State.clearStatus_host : s.clearStatus.host = s.host := by cases s; rfl
@[simp] theorem State.clearStatus_resets : s.clearStatus.resets = s.resets := by cases s; rfl

@[simp] theorem State.clearIllegal_ebuf : s.clearIllegal.ebuf = s.ebuf := by cases s; rfl
@[simp] theorem State.clearIllegal_len : s.clearIllegal.len = s.len := by cases s; rfl
@[simp] theorem State.clearIllegal_badch : s.clearIllegal.badch = s.badch := by cases s; rfl
@[simp] theorem State.clearIllegal_wl : s.clearIllegal.wl = s.wl := by cases s; rfl
@[simp] theorem State.clearIllegal_wlcnt : s.clearIllegal.wlcnt = s.wlcnt := by cases s; rfl
@[simp] theorem State.clearIllegal_phase : s.clearIllegal.phase = s.phase := by cases s; rfl
@[simp] theorem State.clearIllegal_k : s.clearIllegal.k = s.k := by cases s; rfl
@[simp] theorem State.clearIllegal_msg : s.clearIllegal.msg = s.msg := by cases s; rfl
@[simp] theorem State.clearIllegal_digest : s.clearIllegal.digest = s.digest := by cases s; rfl
@[simp] theorem State.clearIllegal_cs : s.clearIllegal.cs = s.cs := by cases s; rfl
@[simp] theorem State.clearIllegal_full : s.clearIllegal.full = s.full := by cases s; rfl
@[simp] theorem State.clearIllegal_midx : s.clearIllegal.midx = s.midx := by cases s; rfl
@[simp] theorem State.clearIllegal_mword : s.clearIllegal.mword = s.mword := by cases s; rfl
@[simp] theorem State.clearIllegal_nwords : s.clearIllegal.nwords = s.nwords := by cases s; rfl
@[simp] theorem State.clearIllegal_done : s.clearIllegal.done = s.done := by cases s; rfl
@[simp] theorem State.clearIllegal_err : s.clearIllegal.err = s.err := by cases s; rfl
@[simp] theorem State.clearIllegal_ill : s.clearIllegal.ill = false := by cases s; rfl
@[simp] theorem State.clearIllegal_wdata : s.clearIllegal.wdata = s.wdata := by cases s; rfl
@[simp] theorem State.clearIllegal_host : s.clearIllegal.host = s.host := by cases s; rfl
@[simp] theorem State.clearIllegal_resets : s.clearIllegal.resets = s.resets := by cases s; rfl

@[simp] theorem State.markIllegal_ebuf : s.markIllegal.ebuf = s.ebuf := by cases s; rfl
@[simp] theorem State.markIllegal_len : s.markIllegal.len = s.len := by cases s; rfl
@[simp] theorem State.markIllegal_badch : s.markIllegal.badch = s.badch := by cases s; rfl
@[simp] theorem State.markIllegal_wl : s.markIllegal.wl = s.wl := by cases s; rfl
@[simp] theorem State.markIllegal_wlcnt : s.markIllegal.wlcnt = s.wlcnt := by cases s; rfl
@[simp] theorem State.markIllegal_phase : s.markIllegal.phase = s.phase := by cases s; rfl
@[simp] theorem State.markIllegal_k : s.markIllegal.k = s.k := by cases s; rfl
@[simp] theorem State.markIllegal_msg : s.markIllegal.msg = s.msg := by cases s; rfl
@[simp] theorem State.markIllegal_digest : s.markIllegal.digest = s.digest := by cases s; rfl
@[simp] theorem State.markIllegal_cs : s.markIllegal.cs = s.cs := by cases s; rfl
@[simp] theorem State.markIllegal_full : s.markIllegal.full = s.full := by cases s; rfl
@[simp] theorem State.markIllegal_midx : s.markIllegal.midx = s.midx := by cases s; rfl
@[simp] theorem State.markIllegal_mword : s.markIllegal.mword = s.mword := by cases s; rfl
@[simp] theorem State.markIllegal_nwords : s.markIllegal.nwords = s.nwords := by cases s; rfl
@[simp] theorem State.markIllegal_done : s.markIllegal.done = s.done := by cases s; rfl
@[simp] theorem State.markIllegal_err : s.markIllegal.err = s.err := by cases s; rfl
@[simp] theorem State.markIllegal_ill : s.markIllegal.ill = true := by cases s; rfl
@[simp] theorem State.markIllegal_wdata : s.markIllegal.wdata = s.wdata := by cases s; rfl
@[simp] theorem State.markIllegal_host : s.markIllegal.host = s.host := by cases s; rfl
@[simp] theorem State.markIllegal_resets : s.markIllegal.resets = s.resets := by cases s; rfl

@[simp] theorem State.raiseErrors_ebuf (e : BitVec 3) : (s.raiseErrors e).ebuf = s.ebuf := by cases s; rfl
@[simp] theorem State.raiseErrors_len (e : BitVec 3) : (s.raiseErrors e).len = s.len := by cases s; rfl
@[simp] theorem State.raiseErrors_badch (e : BitVec 3) : (s.raiseErrors e).badch = s.badch := by cases s; rfl
@[simp] theorem State.raiseErrors_wl (e : BitVec 3) : (s.raiseErrors e).wl = s.wl := by cases s; rfl
@[simp] theorem State.raiseErrors_wlcnt (e : BitVec 3) : (s.raiseErrors e).wlcnt = s.wlcnt := by cases s; rfl
@[simp] theorem State.raiseErrors_phase (e : BitVec 3) : (s.raiseErrors e).phase = .idle := by cases s; rfl
@[simp] theorem State.raiseErrors_k (e : BitVec 3) : (s.raiseErrors e).k = s.k := by cases s; rfl
@[simp] theorem State.raiseErrors_msg (e : BitVec 3) : (s.raiseErrors e).msg = s.msg := by cases s; rfl
@[simp] theorem State.raiseErrors_digest (e : BitVec 3) : (s.raiseErrors e).digest = s.digest := by cases s; rfl
@[simp] theorem State.raiseErrors_cs (e : BitVec 3) : (s.raiseErrors e).cs = s.cs := by cases s; rfl
@[simp] theorem State.raiseErrors_full (e : BitVec 3) : (s.raiseErrors e).full = s.full := by cases s; rfl
@[simp] theorem State.raiseErrors_midx (e : BitVec 3) : (s.raiseErrors e).midx = s.midx := by cases s; rfl
@[simp] theorem State.raiseErrors_mword (e : BitVec 3) : (s.raiseErrors e).mword = s.mword := by cases s; rfl
@[simp] theorem State.raiseErrors_nwords (e : BitVec 3) : (s.raiseErrors e).nwords = s.nwords := by cases s; rfl
@[simp] theorem State.raiseErrors_done (e : BitVec 3) : (s.raiseErrors e).done = true := by cases s; rfl
@[simp] theorem State.raiseErrors_err (e : BitVec 3) : (s.raiseErrors e).err = e := by cases s; rfl
@[simp] theorem State.raiseErrors_ill (e : BitVec 3) : (s.raiseErrors e).ill = s.ill := by cases s; rfl
@[simp] theorem State.raiseErrors_wdata (e : BitVec 3) : (s.raiseErrors e).wdata = s.wdata := by cases s; rfl
@[simp] theorem State.raiseErrors_host (e : BitVec 3) : (s.raiseErrors e).host = s.host := by cases s; rfl
@[simp] theorem State.raiseErrors_resets (e : BitVec 3) : (s.raiseErrors e).resets = s.resets := by cases s; rfl

@[simp] theorem State.publish_ebuf (n : Nat) : (s.publish n).ebuf = s.ebuf := by cases s; rfl
@[simp] theorem State.publish_len (n : Nat) : (s.publish n).len = s.len := by cases s; rfl
@[simp] theorem State.publish_badch (n : Nat) : (s.publish n).badch = s.badch := by cases s; rfl
@[simp] theorem State.publish_wl (n : Nat) : (s.publish n).wl = s.wl := by cases s; rfl
@[simp] theorem State.publish_wlcnt (n : Nat) : (s.publish n).wlcnt = s.wlcnt := by cases s; rfl
@[simp] theorem State.publish_phase (n : Nat) : (s.publish n).phase = .idle := by cases s; rfl
@[simp] theorem State.publish_k (n : Nat) : (s.publish n).k = s.k := by cases s; rfl
@[simp] theorem State.publish_msg (n : Nat) : (s.publish n).msg = s.msg := by cases s; rfl
@[simp] theorem State.publish_digest (n : Nat) : (s.publish n).digest = s.digest := by cases s; rfl
@[simp] theorem State.publish_cs (n : Nat) : (s.publish n).cs = s.cs := by cases s; rfl
@[simp] theorem State.publish_full (n : Nat) : (s.publish n).full = s.full := by cases s; rfl
@[simp] theorem State.publish_midx (n : Nat) : (s.publish n).midx = s.midx := by cases s; rfl
@[simp] theorem State.publish_mword (n : Nat) : (s.publish n).mword = s.mword := by cases s; rfl
@[simp] theorem State.publish_nwords (n : Nat) : (s.publish n).nwords = BitVec.ofNat 5 n := by cases s; rfl
@[simp] theorem State.publish_done (n : Nat) : (s.publish n).done = true := by cases s; rfl
@[simp] theorem State.publish_err (n : Nat) : (s.publish n).err = s.err := by cases s; rfl
@[simp] theorem State.publish_ill (n : Nat) : (s.publish n).ill = s.ill := by cases s; rfl
@[simp] theorem State.publish_wdata (n : Nat) : (s.publish n).wdata = s.wdata := by cases s; rfl
@[simp] theorem State.publish_host (n : Nat) : (s.publish n).host = s.host := by cases s; rfl
@[simp] theorem State.publish_resets (n : Nat) : (s.publish n).resets = s.resets := by cases s; rfl

@[simp] theorem State.countSymbol_ebuf (c : Byte) : (s.countSymbol c).ebuf = s.ebuf := by cases s; rfl
@[simp] theorem State.countSymbol_len (c : Byte) : (s.countSymbol c).len = saturatingInc Config.lenMax s.len := by cases s; rfl
@[simp] theorem State.countSymbol_badch (c : Byte) : (s.countSymbol c).badch = badchAfter s.badch c := by cases s; rfl
@[simp] theorem State.countSymbol_wl (c : Byte) : (s.countSymbol c).wl = s.wl := by cases s; rfl
@[simp] theorem State.countSymbol_wlcnt (c : Byte) : (s.countSymbol c).wlcnt = s.wlcnt := by cases s; rfl
@[simp] theorem State.countSymbol_phase (c : Byte) : (s.countSymbol c).phase = s.phase := by cases s; rfl
@[simp] theorem State.countSymbol_k (c : Byte) : (s.countSymbol c).k = s.k := by cases s; rfl
@[simp] theorem State.countSymbol_msg (c : Byte) : (s.countSymbol c).msg = s.msg := by cases s; rfl
@[simp] theorem State.countSymbol_digest (c : Byte) : (s.countSymbol c).digest = s.digest := by cases s; rfl
@[simp] theorem State.countSymbol_cs (c : Byte) : (s.countSymbol c).cs = s.cs := by cases s; rfl
@[simp] theorem State.countSymbol_full (c : Byte) : (s.countSymbol c).full = s.full := by cases s; rfl
@[simp] theorem State.countSymbol_midx (c : Byte) : (s.countSymbol c).midx = s.midx := by cases s; rfl
@[simp] theorem State.countSymbol_mword (c : Byte) : (s.countSymbol c).mword = s.mword := by cases s; rfl
@[simp] theorem State.countSymbol_nwords (c : Byte) : (s.countSymbol c).nwords = s.nwords := by cases s; rfl
@[simp] theorem State.countSymbol_done (c : Byte) : (s.countSymbol c).done = s.done := by cases s; rfl
@[simp] theorem State.countSymbol_err (c : Byte) : (s.countSymbol c).err = s.err := by cases s; rfl
@[simp] theorem State.countSymbol_ill (c : Byte) : (s.countSymbol c).ill = s.ill := by cases s; rfl
@[simp] theorem State.countSymbol_wdata (c : Byte) : (s.countSymbol c).wdata = s.wdata := by cases s; rfl
@[simp] theorem State.countSymbol_host (c : Byte) : (s.countSymbol c).host = s.host := by cases s; rfl
@[simp] theorem State.countSymbol_resets (c : Byte) : (s.countSymbol c).resets = s.resets := by cases s; rfl

@[simp] theorem State.flipEntropy_ebuf (m : Nat) : (s.flipEntropy m).ebuf = s.ebuf.flipBelow m := by cases s; rfl
@[simp] theorem State.flipEntropy_len (m : Nat) : (s.flipEntropy m).len = s.len := by cases s; rfl
@[simp] theorem State.flipEntropy_badch (m : Nat) : (s.flipEntropy m).badch = s.badch := by cases s; rfl
@[simp] theorem State.flipEntropy_wl (m : Nat) : (s.flipEntropy m).wl = s.wl := by cases s; rfl
@[simp] theorem State.flipEntropy_wlcnt (m : Nat) : (s.flipEntropy m).wlcnt = s.wlcnt := by cases s; rfl
@[simp] theorem State.flipEntropy_phase (m : Nat) : (s.flipEntropy m).phase = s.phase := by cases s; rfl
@[simp] theorem State.flipEntropy_k (m : Nat) : (s.flipEntropy m).k = s.k := by cases s; rfl
@[simp] theorem State.flipEntropy_msg (m : Nat) : (s.flipEntropy m).msg = s.msg := by cases s; rfl
@[simp] theorem State.flipEntropy_digest (m : Nat) : (s.flipEntropy m).digest = s.digest := by cases s; rfl
@[simp] theorem State.flipEntropy_cs (m : Nat) : (s.flipEntropy m).cs = s.cs := by cases s; rfl
@[simp] theorem State.flipEntropy_full (m : Nat) : (s.flipEntropy m).full = s.full := by cases s; rfl
@[simp] theorem State.flipEntropy_midx (m : Nat) : (s.flipEntropy m).midx = s.midx := by cases s; rfl
@[simp] theorem State.flipEntropy_mword (m : Nat) : (s.flipEntropy m).mword = s.mword := by cases s; rfl
@[simp] theorem State.flipEntropy_nwords (m : Nat) : (s.flipEntropy m).nwords = s.nwords := by cases s; rfl
@[simp] theorem State.flipEntropy_done (m : Nat) : (s.flipEntropy m).done = s.done := by cases s; rfl
@[simp] theorem State.flipEntropy_err (m : Nat) : (s.flipEntropy m).err = s.err := by cases s; rfl
@[simp] theorem State.flipEntropy_ill (m : Nat) : (s.flipEntropy m).ill = s.ill := by cases s; rfl
@[simp] theorem State.flipEntropy_wdata (m : Nat) : (s.flipEntropy m).wdata = s.wdata := by cases s; rfl
@[simp] theorem State.flipEntropy_host (m : Nat) : (s.flipEntropy m).host = s.host := by cases s; rfl
@[simp] theorem State.flipEntropy_resets (m : Nat) : (s.flipEntropy m).resets = s.resets := by cases s; rfl

@[simp] theorem State.countEntry_ebuf : s.countEntry.ebuf = s.ebuf := by cases s; rfl
@[simp] theorem State.countEntry_len : s.countEntry.len = s.len := by cases s; rfl
@[simp] theorem State.countEntry_badch : s.countEntry.badch = s.badch := by cases s; rfl
@[simp] theorem State.countEntry_wl : s.countEntry.wl = s.wl := by cases s; rfl
@[simp] theorem State.countEntry_wlcnt : s.countEntry.wlcnt = saturatingInc Config.wlCntMax s.wlcnt := by cases s; rfl
@[simp] theorem State.countEntry_phase : s.countEntry.phase = s.phase := by cases s; rfl
@[simp] theorem State.countEntry_k : s.countEntry.k = s.k := by cases s; rfl
@[simp] theorem State.countEntry_msg : s.countEntry.msg = s.msg := by cases s; rfl
@[simp] theorem State.countEntry_digest : s.countEntry.digest = s.digest := by cases s; rfl
@[simp] theorem State.countEntry_cs : s.countEntry.cs = s.cs := by cases s; rfl
@[simp] theorem State.countEntry_full : s.countEntry.full = s.full := by cases s; rfl
@[simp] theorem State.countEntry_midx : s.countEntry.midx = s.midx := by cases s; rfl
@[simp] theorem State.countEntry_mword : s.countEntry.mword = s.mword := by cases s; rfl
@[simp] theorem State.countEntry_nwords : s.countEntry.nwords = s.nwords := by cases s; rfl
@[simp] theorem State.countEntry_done : s.countEntry.done = s.done := by cases s; rfl
@[simp] theorem State.countEntry_err : s.countEntry.err = s.err := by cases s; rfl
@[simp] theorem State.countEntry_ill : s.countEntry.ill = s.ill := by cases s; rfl
@[simp] theorem State.countEntry_wdata : s.countEntry.wdata = s.wdata := by cases s; rfl
@[simp] theorem State.countEntry_host : s.countEntry.host = s.host := by cases s; rfl
@[simp] theorem State.countEntry_resets : s.countEntry.resets = s.resets := by cases s; rfl

@[simp] theorem State.forgetEntries_ebuf : s.forgetEntries.ebuf = s.ebuf := by cases s; rfl
@[simp] theorem State.forgetEntries_len : s.forgetEntries.len = s.len := by cases s; rfl
@[simp] theorem State.forgetEntries_badch : s.forgetEntries.badch = s.badch := by cases s; rfl
@[simp] theorem State.forgetEntries_wl : s.forgetEntries.wl = s.wl := by cases s; rfl
@[simp] theorem State.forgetEntries_wlcnt : s.forgetEntries.wlcnt = 0#12 := by cases s; rfl
@[simp] theorem State.forgetEntries_phase : s.forgetEntries.phase = s.phase := by cases s; rfl
@[simp] theorem State.forgetEntries_k : s.forgetEntries.k = s.k := by cases s; rfl
@[simp] theorem State.forgetEntries_msg : s.forgetEntries.msg = s.msg := by cases s; rfl
@[simp] theorem State.forgetEntries_digest : s.forgetEntries.digest = s.digest := by cases s; rfl
@[simp] theorem State.forgetEntries_cs : s.forgetEntries.cs = s.cs := by cases s; rfl
@[simp] theorem State.forgetEntries_full : s.forgetEntries.full = s.full := by cases s; rfl
@[simp] theorem State.forgetEntries_midx : s.forgetEntries.midx = s.midx := by cases s; rfl
@[simp] theorem State.forgetEntries_mword : s.forgetEntries.mword = s.mword := by cases s; rfl
@[simp] theorem State.forgetEntries_nwords : s.forgetEntries.nwords = s.nwords := by cases s; rfl
@[simp] theorem State.forgetEntries_done : s.forgetEntries.done = s.done := by cases s; rfl
@[simp] theorem State.forgetEntries_err : s.forgetEntries.err = s.err := by cases s; rfl
@[simp] theorem State.forgetEntries_ill : s.forgetEntries.ill = s.ill := by cases s; rfl
@[simp] theorem State.forgetEntries_wdata : s.forgetEntries.wdata = s.wdata := by cases s; rfl
@[simp] theorem State.forgetEntries_host : s.forgetEntries.host = s.host := by cases s; rfl
@[simp] theorem State.forgetEntries_resets : s.forgetEntries.resets = s.resets := by cases s; rfl

@[simp] theorem State.storeResult_ebuf (k : Nat) (a : Index) (w : Word) : (s.storeResult k a w).ebuf = s.ebuf := by cases s; rfl
@[simp] theorem State.storeResult_len (k : Nat) (a : Index) (w : Word) : (s.storeResult k a w).len = s.len := by cases s; rfl
@[simp] theorem State.storeResult_badch (k : Nat) (a : Index) (w : Word) : (s.storeResult k a w).badch = s.badch := by cases s; rfl
@[simp] theorem State.storeResult_wl (k : Nat) (a : Index) (w : Word) : (s.storeResult k a w).wl = s.wl := by cases s; rfl
@[simp] theorem State.storeResult_wlcnt (k : Nat) (a : Index) (w : Word) : (s.storeResult k a w).wlcnt = s.wlcnt := by cases s; rfl
@[simp] theorem State.storeResult_phase (k : Nat) (a : Index) (w : Word) : (s.storeResult k a w).phase = s.phase := by cases s; rfl
@[simp] theorem State.storeResult_k (k : Nat) (a : Index) (w : Word) : (s.storeResult k a w).k = s.k := by cases s; rfl
@[simp] theorem State.storeResult_msg (k : Nat) (a : Index) (w : Word) : (s.storeResult k a w).msg = s.msg := by cases s; rfl
@[simp] theorem State.storeResult_digest (k : Nat) (a : Index) (w : Word) : (s.storeResult k a w).digest = s.digest := by cases s; rfl
@[simp] theorem State.storeResult_cs (k : Nat) (a : Index) (w : Word) : (s.storeResult k a w).cs = s.cs := by cases s; rfl
@[simp] theorem State.storeResult_full (k : Nat) (a : Index) (w : Word) : (s.storeResult k a w).full = s.full := by cases s; rfl
@[simp] theorem State.storeResult_midx (k : Nat) (a : Index) (w : Word) : (s.storeResult k a w).midx = Regs.setEntry s.midx k a := by cases s; rfl
@[simp] theorem State.storeResult_mword (k : Nat) (a : Index) (w : Word) : (s.storeResult k a w).mword = Regs.setEntry s.mword k w := by cases s; rfl
@[simp] theorem State.storeResult_nwords (k : Nat) (a : Index) (w : Word) : (s.storeResult k a w).nwords = s.nwords := by cases s; rfl
@[simp] theorem State.storeResult_done (k : Nat) (a : Index) (w : Word) : (s.storeResult k a w).done = s.done := by cases s; rfl
@[simp] theorem State.storeResult_err (k : Nat) (a : Index) (w : Word) : (s.storeResult k a w).err = s.err := by cases s; rfl
@[simp] theorem State.storeResult_ill (k : Nat) (a : Index) (w : Word) : (s.storeResult k a w).ill = s.ill := by cases s; rfl
@[simp] theorem State.storeResult_wdata (k : Nat) (a : Index) (w : Word) : (s.storeResult k a w).wdata = s.wdata := by cases s; rfl
@[simp] theorem State.storeResult_host (k : Nat) (a : Index) (w : Word) : (s.storeResult k a w).host = s.host := by cases s; rfl
@[simp] theorem State.storeResult_resets (k : Nat) (a : Index) (w : Word) : (s.storeResult k a w).resets = s.resets := by cases s; rfl

@[simp] theorem State.setMsg_ebuf (m : Vector Byte 32) : (s.setMsg m).ebuf = s.ebuf := by cases s; rfl
@[simp] theorem State.setMsg_len (m : Vector Byte 32) : (s.setMsg m).len = s.len := by cases s; rfl
@[simp] theorem State.setMsg_badch (m : Vector Byte 32) : (s.setMsg m).badch = s.badch := by cases s; rfl
@[simp] theorem State.setMsg_wl (m : Vector Byte 32) : (s.setMsg m).wl = s.wl := by cases s; rfl
@[simp] theorem State.setMsg_wlcnt (m : Vector Byte 32) : (s.setMsg m).wlcnt = s.wlcnt := by cases s; rfl
@[simp] theorem State.setMsg_phase (m : Vector Byte 32) : (s.setMsg m).phase = s.phase := by cases s; rfl
@[simp] theorem State.setMsg_k (m : Vector Byte 32) : (s.setMsg m).k = s.k := by cases s; rfl
@[simp] theorem State.setMsg_msg (m : Vector Byte 32) : (s.setMsg m).msg = m := by cases s; rfl
@[simp] theorem State.setMsg_digest (m : Vector Byte 32) : (s.setMsg m).digest = s.digest := by cases s; rfl
@[simp] theorem State.setMsg_cs (m : Vector Byte 32) : (s.setMsg m).cs = s.cs := by cases s; rfl
@[simp] theorem State.setMsg_full (m : Vector Byte 32) : (s.setMsg m).full = s.full := by cases s; rfl
@[simp] theorem State.setMsg_midx (m : Vector Byte 32) : (s.setMsg m).midx = s.midx := by cases s; rfl
@[simp] theorem State.setMsg_mword (m : Vector Byte 32) : (s.setMsg m).mword = s.mword := by cases s; rfl
@[simp] theorem State.setMsg_nwords (m : Vector Byte 32) : (s.setMsg m).nwords = s.nwords := by cases s; rfl
@[simp] theorem State.setMsg_done (m : Vector Byte 32) : (s.setMsg m).done = s.done := by cases s; rfl
@[simp] theorem State.setMsg_err (m : Vector Byte 32) : (s.setMsg m).err = s.err := by cases s; rfl
@[simp] theorem State.setMsg_ill (m : Vector Byte 32) : (s.setMsg m).ill = s.ill := by cases s; rfl
@[simp] theorem State.setMsg_wdata (m : Vector Byte 32) : (s.setMsg m).wdata = s.wdata := by cases s; rfl
@[simp] theorem State.setMsg_host (m : Vector Byte 32) : (s.setMsg m).host = s.host := by cases s; rfl
@[simp] theorem State.setMsg_resets (m : Vector Byte 32) : (s.setMsg m).resets = s.resets := by cases s; rfl

@[simp] theorem State.setDigest_ebuf (d : BitVec 256) : (s.setDigest d).ebuf = s.ebuf := by cases s; rfl
@[simp] theorem State.setDigest_len (d : BitVec 256) : (s.setDigest d).len = s.len := by cases s; rfl
@[simp] theorem State.setDigest_badch (d : BitVec 256) : (s.setDigest d).badch = s.badch := by cases s; rfl
@[simp] theorem State.setDigest_wl (d : BitVec 256) : (s.setDigest d).wl = s.wl := by cases s; rfl
@[simp] theorem State.setDigest_wlcnt (d : BitVec 256) : (s.setDigest d).wlcnt = s.wlcnt := by cases s; rfl
@[simp] theorem State.setDigest_phase (d : BitVec 256) : (s.setDigest d).phase = s.phase := by cases s; rfl
@[simp] theorem State.setDigest_k (d : BitVec 256) : (s.setDigest d).k = s.k := by cases s; rfl
@[simp] theorem State.setDigest_msg (d : BitVec 256) : (s.setDigest d).msg = s.msg := by cases s; rfl
@[simp] theorem State.setDigest_digest (d : BitVec 256) : (s.setDigest d).digest = d := by cases s; rfl
@[simp] theorem State.setDigest_cs (d : BitVec 256) : (s.setDigest d).cs = s.cs := by cases s; rfl
@[simp] theorem State.setDigest_full (d : BitVec 256) : (s.setDigest d).full = s.full := by cases s; rfl
@[simp] theorem State.setDigest_midx (d : BitVec 256) : (s.setDigest d).midx = s.midx := by cases s; rfl
@[simp] theorem State.setDigest_mword (d : BitVec 256) : (s.setDigest d).mword = s.mword := by cases s; rfl
@[simp] theorem State.setDigest_nwords (d : BitVec 256) : (s.setDigest d).nwords = s.nwords := by cases s; rfl
@[simp] theorem State.setDigest_done (d : BitVec 256) : (s.setDigest d).done = s.done := by cases s; rfl
@[simp] theorem State.setDigest_err (d : BitVec 256) : (s.setDigest d).err = s.err := by cases s; rfl
@[simp] theorem State.setDigest_ill (d : BitVec 256) : (s.setDigest d).ill = s.ill := by cases s; rfl
@[simp] theorem State.setDigest_wdata (d : BitVec 256) : (s.setDigest d).wdata = s.wdata := by cases s; rfl
@[simp] theorem State.setDigest_host (d : BitVec 256) : (s.setDigest d).host = s.host := by cases s; rfl
@[simp] theorem State.setDigest_resets (d : BitVec 256) : (s.setDigest d).resets = s.resets := by cases s; rfl

@[simp] theorem State.setChecksum_ebuf (c : BitVec 8) : (s.setChecksum c).ebuf = s.ebuf := by cases s; rfl
@[simp] theorem State.setChecksum_len (c : BitVec 8) : (s.setChecksum c).len = s.len := by cases s; rfl
@[simp] theorem State.setChecksum_badch (c : BitVec 8) : (s.setChecksum c).badch = s.badch := by cases s; rfl
@[simp] theorem State.setChecksum_wl (c : BitVec 8) : (s.setChecksum c).wl = s.wl := by cases s; rfl
@[simp] theorem State.setChecksum_wlcnt (c : BitVec 8) : (s.setChecksum c).wlcnt = s.wlcnt := by cases s; rfl
@[simp] theorem State.setChecksum_phase (c : BitVec 8) : (s.setChecksum c).phase = s.phase := by cases s; rfl
@[simp] theorem State.setChecksum_k (c : BitVec 8) : (s.setChecksum c).k = s.k := by cases s; rfl
@[simp] theorem State.setChecksum_msg (c : BitVec 8) : (s.setChecksum c).msg = s.msg := by cases s; rfl
@[simp] theorem State.setChecksum_digest (c : BitVec 8) : (s.setChecksum c).digest = s.digest := by cases s; rfl
@[simp] theorem State.setChecksum_cs (c : BitVec 8) : (s.setChecksum c).cs = c := by cases s; rfl
@[simp] theorem State.setChecksum_full (c : BitVec 8) : (s.setChecksum c).full = s.full := by cases s; rfl
@[simp] theorem State.setChecksum_midx (c : BitVec 8) : (s.setChecksum c).midx = s.midx := by cases s; rfl
@[simp] theorem State.setChecksum_mword (c : BitVec 8) : (s.setChecksum c).mword = s.mword := by cases s; rfl
@[simp] theorem State.setChecksum_nwords (c : BitVec 8) : (s.setChecksum c).nwords = s.nwords := by cases s; rfl
@[simp] theorem State.setChecksum_done (c : BitVec 8) : (s.setChecksum c).done = s.done := by cases s; rfl
@[simp] theorem State.setChecksum_err (c : BitVec 8) : (s.setChecksum c).err = s.err := by cases s; rfl
@[simp] theorem State.setChecksum_ill (c : BitVec 8) : (s.setChecksum c).ill = s.ill := by cases s; rfl
@[simp] theorem State.setChecksum_wdata (c : BitVec 8) : (s.setChecksum c).wdata = s.wdata := by cases s; rfl
@[simp] theorem State.setChecksum_host (c : BitVec 8) : (s.setChecksum c).host = s.host := by cases s; rfl
@[simp] theorem State.setChecksum_resets (c : BitVec 8) : (s.setChecksum c).resets = s.resets := by cases s; rfl

@[simp] theorem State.setFull_ebuf (f : BitArray 264) : (s.setFull f).ebuf = s.ebuf := by cases s; rfl
@[simp] theorem State.setFull_len (f : BitArray 264) : (s.setFull f).len = s.len := by cases s; rfl
@[simp] theorem State.setFull_badch (f : BitArray 264) : (s.setFull f).badch = s.badch := by cases s; rfl
@[simp] theorem State.setFull_wl (f : BitArray 264) : (s.setFull f).wl = s.wl := by cases s; rfl
@[simp] theorem State.setFull_wlcnt (f : BitArray 264) : (s.setFull f).wlcnt = s.wlcnt := by cases s; rfl
@[simp] theorem State.setFull_phase (f : BitArray 264) : (s.setFull f).phase = s.phase := by cases s; rfl
@[simp] theorem State.setFull_k (f : BitArray 264) : (s.setFull f).k = 0#5 := by cases s; rfl
@[simp] theorem State.setFull_msg (f : BitArray 264) : (s.setFull f).msg = s.msg := by cases s; rfl
@[simp] theorem State.setFull_digest (f : BitArray 264) : (s.setFull f).digest = s.digest := by cases s; rfl
@[simp] theorem State.setFull_cs (f : BitArray 264) : (s.setFull f).cs = s.cs := by cases s; rfl
@[simp] theorem State.setFull_full (f : BitArray 264) : (s.setFull f).full = f := by cases s; rfl
@[simp] theorem State.setFull_midx (f : BitArray 264) : (s.setFull f).midx = s.midx := by cases s; rfl
@[simp] theorem State.setFull_mword (f : BitArray 264) : (s.setFull f).mword = s.mword := by cases s; rfl
@[simp] theorem State.setFull_nwords (f : BitArray 264) : (s.setFull f).nwords = s.nwords := by cases s; rfl
@[simp] theorem State.setFull_done (f : BitArray 264) : (s.setFull f).done = s.done := by cases s; rfl
@[simp] theorem State.setFull_err (f : BitArray 264) : (s.setFull f).err = s.err := by cases s; rfl
@[simp] theorem State.setFull_ill (f : BitArray 264) : (s.setFull f).ill = s.ill := by cases s; rfl
@[simp] theorem State.setFull_wdata (f : BitArray 264) : (s.setFull f).wdata = s.wdata := by cases s; rfl
@[simp] theorem State.setFull_host (f : BitArray 264) : (s.setFull f).host = s.host := by cases s; rfl
@[simp] theorem State.setFull_resets (f : BitArray 264) : (s.setFull f).resets = s.resets := by cases s; rfl

@[simp] theorem State.advanceK_ebuf : s.advanceK.ebuf = s.ebuf := by cases s; rfl
@[simp] theorem State.advanceK_len : s.advanceK.len = s.len := by cases s; rfl
@[simp] theorem State.advanceK_badch : s.advanceK.badch = s.badch := by cases s; rfl
@[simp] theorem State.advanceK_wl : s.advanceK.wl = s.wl := by cases s; rfl
@[simp] theorem State.advanceK_wlcnt : s.advanceK.wlcnt = s.wlcnt := by cases s; rfl
@[simp] theorem State.advanceK_phase : s.advanceK.phase = s.phase := by cases s; rfl
@[simp] theorem State.advanceK_k : s.advanceK.k = s.k + 1#5 := by cases s; rfl
@[simp] theorem State.advanceK_msg : s.advanceK.msg = s.msg := by cases s; rfl
@[simp] theorem State.advanceK_digest : s.advanceK.digest = s.digest := by cases s; rfl
@[simp] theorem State.advanceK_cs : s.advanceK.cs = s.cs := by cases s; rfl
@[simp] theorem State.advanceK_full : s.advanceK.full = s.full := by cases s; rfl
@[simp] theorem State.advanceK_midx : s.advanceK.midx = s.midx := by cases s; rfl
@[simp] theorem State.advanceK_mword : s.advanceK.mword = s.mword := by cases s; rfl
@[simp] theorem State.advanceK_nwords : s.advanceK.nwords = s.nwords := by cases s; rfl
@[simp] theorem State.advanceK_done : s.advanceK.done = s.done := by cases s; rfl
@[simp] theorem State.advanceK_err : s.advanceK.err = s.err := by cases s; rfl
@[simp] theorem State.advanceK_ill : s.advanceK.ill = s.ill := by cases s; rfl
@[simp] theorem State.advanceK_wdata : s.advanceK.wdata = s.wdata := by cases s; rfl
@[simp] theorem State.advanceK_host : s.advanceK.host = s.host := by cases s; rfl
@[simp] theorem State.advanceK_resets : s.advanceK.resets = s.resets := by cases s; rfl

@[simp] theorem State.withHost_ebuf (h : List HostMove) : (s.withHost h).ebuf = s.ebuf := by cases s; rfl
@[simp] theorem State.withHost_len (h : List HostMove) : (s.withHost h).len = s.len := by cases s; rfl
@[simp] theorem State.withHost_badch (h : List HostMove) : (s.withHost h).badch = s.badch := by cases s; rfl
@[simp] theorem State.withHost_wl (h : List HostMove) : (s.withHost h).wl = s.wl := by cases s; rfl
@[simp] theorem State.withHost_wlcnt (h : List HostMove) : (s.withHost h).wlcnt = s.wlcnt := by cases s; rfl
@[simp] theorem State.withHost_phase (h : List HostMove) : (s.withHost h).phase = s.phase := by cases s; rfl
@[simp] theorem State.withHost_k (h : List HostMove) : (s.withHost h).k = s.k := by cases s; rfl
@[simp] theorem State.withHost_msg (h : List HostMove) : (s.withHost h).msg = s.msg := by cases s; rfl
@[simp] theorem State.withHost_digest (h : List HostMove) : (s.withHost h).digest = s.digest := by cases s; rfl
@[simp] theorem State.withHost_cs (h : List HostMove) : (s.withHost h).cs = s.cs := by cases s; rfl
@[simp] theorem State.withHost_full (h : List HostMove) : (s.withHost h).full = s.full := by cases s; rfl
@[simp] theorem State.withHost_midx (h : List HostMove) : (s.withHost h).midx = s.midx := by cases s; rfl
@[simp] theorem State.withHost_mword (h : List HostMove) : (s.withHost h).mword = s.mword := by cases s; rfl
@[simp] theorem State.withHost_nwords (h : List HostMove) : (s.withHost h).nwords = s.nwords := by cases s; rfl
@[simp] theorem State.withHost_done (h : List HostMove) : (s.withHost h).done = s.done := by cases s; rfl
@[simp] theorem State.withHost_err (h : List HostMove) : (s.withHost h).err = s.err := by cases s; rfl
@[simp] theorem State.withHost_ill (h : List HostMove) : (s.withHost h).ill = s.ill := by cases s; rfl
@[simp] theorem State.withHost_wdata (h : List HostMove) : (s.withHost h).wdata = s.wdata := by cases s; rfl
@[simp] theorem State.withHost_host (h : List HostMove) : (s.withHost h).host = h := by cases s; rfl
@[simp] theorem State.withHost_resets (h : List HostMove) : (s.withHost h).resets = s.resets := by cases s; rfl

@[simp] theorem State.sampleWdata_ebuf (w : Word) : (s.sampleWdata w).ebuf = s.ebuf := by cases s; rfl
@[simp] theorem State.sampleWdata_len (w : Word) : (s.sampleWdata w).len = s.len := by cases s; rfl
@[simp] theorem State.sampleWdata_badch (w : Word) : (s.sampleWdata w).badch = s.badch := by cases s; rfl
@[simp] theorem State.sampleWdata_wl (w : Word) : (s.sampleWdata w).wl = s.wl := by cases s; rfl
@[simp] theorem State.sampleWdata_wlcnt (w : Word) : (s.sampleWdata w).wlcnt = s.wlcnt := by cases s; rfl
@[simp] theorem State.sampleWdata_phase (w : Word) : (s.sampleWdata w).phase = s.phase := by cases s; rfl
@[simp] theorem State.sampleWdata_k (w : Word) : (s.sampleWdata w).k = s.k := by cases s; rfl
@[simp] theorem State.sampleWdata_msg (w : Word) : (s.sampleWdata w).msg = s.msg := by cases s; rfl
@[simp] theorem State.sampleWdata_digest (w : Word) : (s.sampleWdata w).digest = s.digest := by cases s; rfl
@[simp] theorem State.sampleWdata_cs (w : Word) : (s.sampleWdata w).cs = s.cs := by cases s; rfl
@[simp] theorem State.sampleWdata_full (w : Word) : (s.sampleWdata w).full = s.full := by cases s; rfl
@[simp] theorem State.sampleWdata_midx (w : Word) : (s.sampleWdata w).midx = s.midx := by cases s; rfl
@[simp] theorem State.sampleWdata_mword (w : Word) : (s.sampleWdata w).mword = s.mword := by cases s; rfl
@[simp] theorem State.sampleWdata_nwords (w : Word) : (s.sampleWdata w).nwords = s.nwords := by cases s; rfl
@[simp] theorem State.sampleWdata_done (w : Word) : (s.sampleWdata w).done = s.done := by cases s; rfl
@[simp] theorem State.sampleWdata_err (w : Word) : (s.sampleWdata w).err = s.err := by cases s; rfl
@[simp] theorem State.sampleWdata_ill (w : Word) : (s.sampleWdata w).ill = s.ill := by cases s; rfl
@[simp] theorem State.sampleWdata_wdata (w : Word) : (s.sampleWdata w).wdata = w := by cases s; rfl
@[simp] theorem State.sampleWdata_host (w : Word) : (s.sampleWdata w).host = s.host := by cases s; rfl
@[simp] theorem State.sampleWdata_resets (w : Word) : (s.sampleWdata w).resets = s.resets := by cases s; rfl

@[simp] theorem State.resetEdge_ebuf : s.resetEdge.ebuf = 0#256 := by cases s; rfl
@[simp] theorem State.resetEdge_len : s.resetEdge.len = 0#9 := by cases s; rfl
@[simp] theorem State.resetEdge_badch : s.resetEdge.badch = false := by cases s; rfl
@[simp] theorem State.resetEdge_wl : s.resetEdge.wl = s.wl := by cases s; rfl
@[simp] theorem State.resetEdge_wlcnt : s.resetEdge.wlcnt = 0#12 := by cases s; rfl
@[simp] theorem State.resetEdge_phase : s.resetEdge.phase = .idle := by cases s; rfl
@[simp] theorem State.resetEdge_k : s.resetEdge.k = Config.resetK s.resets := by cases s; rfl
@[simp] theorem State.resetEdge_msg : s.resetEdge.msg = Config.resetMsg s.resets := by cases s; rfl
@[simp] theorem State.resetEdge_digest : s.resetEdge.digest = Config.resetDigest s.resets := by cases s; rfl
@[simp] theorem State.resetEdge_cs : s.resetEdge.cs = Config.resetCs s.resets := by cases s; rfl
@[simp] theorem State.resetEdge_full : s.resetEdge.full = Config.resetFull s.resets := by cases s; rfl
@[simp] theorem State.resetEdge_midx : s.resetEdge.midx = Config.resetMidx s.resets := by cases s; rfl
@[simp] theorem State.resetEdge_mword : s.resetEdge.mword = Config.resetMword s.resets := by cases s; rfl
@[simp] theorem State.resetEdge_nwords : s.resetEdge.nwords = 0#5 := by cases s; rfl
@[simp] theorem State.resetEdge_done : s.resetEdge.done = false := by cases s; rfl
@[simp] theorem State.resetEdge_err : s.resetEdge.err = 0#3 := by cases s; rfl
@[simp] theorem State.resetEdge_ill : s.resetEdge.ill = false := by cases s; rfl
@[simp] theorem State.resetEdge_wdata : s.resetEdge.wdata = s.wdata := by cases s; rfl
@[simp] theorem State.resetEdge_host : s.resetEdge.host = s.host := by cases s; rfl
@[simp] theorem State.resetEdge_resets : s.resetEdge.resets = s.resets + 1 := by cases s; rfl

@[simp] theorem State.storeBit_len (c : Option Nat) (b : Bool) : (s.storeBit c b).len = s.len := by cases c <;> rfl
@[simp] theorem State.storeBit_badch (c : Option Nat) (b : Bool) : (s.storeBit c b).badch = s.badch := by cases c <;> rfl
@[simp] theorem State.storeBit_wl (c : Option Nat) (b : Bool) : (s.storeBit c b).wl = s.wl := by cases c <;> rfl
@[simp] theorem State.storeBit_wlcnt (c : Option Nat) (b : Bool) : (s.storeBit c b).wlcnt = s.wlcnt := by cases c <;> rfl
@[simp] theorem State.storeBit_phase (c : Option Nat) (b : Bool) : (s.storeBit c b).phase = s.phase := by cases c <;> rfl
@[simp] theorem State.storeBit_k (c : Option Nat) (b : Bool) : (s.storeBit c b).k = s.k := by cases c <;> rfl
@[simp] theorem State.storeBit_msg (c : Option Nat) (b : Bool) : (s.storeBit c b).msg = s.msg := by cases c <;> rfl
@[simp] theorem State.storeBit_digest (c : Option Nat) (b : Bool) : (s.storeBit c b).digest = s.digest := by cases c <;> rfl
@[simp] theorem State.storeBit_cs (c : Option Nat) (b : Bool) : (s.storeBit c b).cs = s.cs := by cases c <;> rfl
@[simp] theorem State.storeBit_full (c : Option Nat) (b : Bool) : (s.storeBit c b).full = s.full := by cases c <;> rfl
@[simp] theorem State.storeBit_midx (c : Option Nat) (b : Bool) : (s.storeBit c b).midx = s.midx := by cases c <;> rfl
@[simp] theorem State.storeBit_mword (c : Option Nat) (b : Bool) : (s.storeBit c b).mword = s.mword := by cases c <;> rfl
@[simp] theorem State.storeBit_nwords (c : Option Nat) (b : Bool) : (s.storeBit c b).nwords = s.nwords := by cases c <;> rfl
@[simp] theorem State.storeBit_done (c : Option Nat) (b : Bool) : (s.storeBit c b).done = s.done := by cases c <;> rfl
@[simp] theorem State.storeBit_err (c : Option Nat) (b : Bool) : (s.storeBit c b).err = s.err := by cases c <;> rfl
@[simp] theorem State.storeBit_ill (c : Option Nat) (b : Bool) : (s.storeBit c b).ill = s.ill := by cases c <;> rfl
@[simp] theorem State.storeBit_wdata (c : Option Nat) (b : Bool) : (s.storeBit c b).wdata = s.wdata := by cases c <;> rfl
@[simp] theorem State.storeBit_host (c : Option Nat) (b : Bool) : (s.storeBit c b).host = s.host := by cases c <;> rfl
@[simp] theorem State.storeBit_resets (c : Option Nat) (b : Bool) : (s.storeBit c b).resets = s.resets := by cases c <;> rfl

@[simp] theorem State.storeEntry_ebuf (c : Option Nat) (w : Word) : (s.storeEntry c w).ebuf = s.ebuf := by cases c <;> rfl
@[simp] theorem State.storeEntry_len (c : Option Nat) (w : Word) : (s.storeEntry c w).len = s.len := by cases c <;> rfl
@[simp] theorem State.storeEntry_badch (c : Option Nat) (w : Word) : (s.storeEntry c w).badch = s.badch := by cases c <;> rfl
@[simp] theorem State.storeEntry_wlcnt (c : Option Nat) (w : Word) : (s.storeEntry c w).wlcnt = s.wlcnt := by cases c <;> rfl
@[simp] theorem State.storeEntry_phase (c : Option Nat) (w : Word) : (s.storeEntry c w).phase = s.phase := by cases c <;> rfl
@[simp] theorem State.storeEntry_k (c : Option Nat) (w : Word) : (s.storeEntry c w).k = s.k := by cases c <;> rfl
@[simp] theorem State.storeEntry_msg (c : Option Nat) (w : Word) : (s.storeEntry c w).msg = s.msg := by cases c <;> rfl
@[simp] theorem State.storeEntry_digest (c : Option Nat) (w : Word) : (s.storeEntry c w).digest = s.digest := by cases c <;> rfl
@[simp] theorem State.storeEntry_cs (c : Option Nat) (w : Word) : (s.storeEntry c w).cs = s.cs := by cases c <;> rfl
@[simp] theorem State.storeEntry_full (c : Option Nat) (w : Word) : (s.storeEntry c w).full = s.full := by cases c <;> rfl
@[simp] theorem State.storeEntry_midx (c : Option Nat) (w : Word) : (s.storeEntry c w).midx = s.midx := by cases c <;> rfl
@[simp] theorem State.storeEntry_mword (c : Option Nat) (w : Word) : (s.storeEntry c w).mword = s.mword := by cases c <;> rfl
@[simp] theorem State.storeEntry_nwords (c : Option Nat) (w : Word) : (s.storeEntry c w).nwords = s.nwords := by cases c <;> rfl
@[simp] theorem State.storeEntry_done (c : Option Nat) (w : Word) : (s.storeEntry c w).done = s.done := by cases c <;> rfl
@[simp] theorem State.storeEntry_err (c : Option Nat) (w : Word) : (s.storeEntry c w).err = s.err := by cases c <;> rfl
@[simp] theorem State.storeEntry_ill (c : Option Nat) (w : Word) : (s.storeEntry c w).ill = s.ill := by cases c <;> rfl
@[simp] theorem State.storeEntry_wdata (c : Option Nat) (w : Word) : (s.storeEntry c w).wdata = s.wdata := by cases c <;> rfl
@[simp] theorem State.storeEntry_host (c : Option Nat) (w : Word) : (s.storeEntry c w).host = s.host := by cases c <;> rfl
@[simp] theorem State.storeEntry_resets (c : Option Nat) (w : Word) : (s.storeEntry c w).resets = s.resets := by cases c <;> rfl

@[simp] theorem State.storeBit_none_ebuf (b : Bool) : (s.storeBit none b).ebuf = s.ebuf := by cases s; rfl
@[simp] theorem State.storeBit_some_ebuf (i : Nat) (b : Bool) :
    (s.storeBit (some i) b).ebuf = s.ebuf.setCell i b := by cases s; rfl
@[simp] theorem State.storeEntry_none_wl (w : Word) : (s.storeEntry none w).wl = s.wl := by cases s; rfl
@[simp] theorem State.storeEntry_some_wl (a : Nat) (w : Word) :
    (s.storeEntry (some a) w).wl = s.wl.write a w := by cases s; rfl

end Sys2Proof.Machine
end

