-- ==== Sys2Proof/Laws/Engine.lean ====
section
/-! SUPPORT. Everything an engine step can do, one lemma per phase and one inversion over all of them. -/

namespace Sys2Proof.Machine

/-- No error flag is set exactly when all three checks of R77 pass. -/
theorem errorFlags_eq_zero (s : State) :
    s.errorFlags = 0#3 ↔ inLenSet s.entLen = true ∧ s.badch = false ∧ s.wlcnt.toNat = Config.wlSize := by
  have hb : ∀ a b c : Bool, BitVec.ofBool a ++ BitVec.ofBool b ++ BitVec.ofBool c = 0#3
      ↔ a = false ∧ b = false ∧ c = false := by decide
  unfold State.errorFlags
  rw [hb]
  simp only [State.lengthError, State.characterError, State.wordlistError]
  constructor
  · rintro ⟨h1, h2, h3⟩
    exact ⟨by simpa using h3, h2, by simpa using h1⟩
  · rintro ⟨h1, h2, h3⟩
    exact ⟨by simpa using h3, h2, by simpa using h1⟩

theorem engineStep_idle {s : State} (h : s.phase = .idle) : engineStep s = .next s := by
  simp [engineStep, h]

theorem engineStep_validate {s : State} (h : s.phase = .validate) :
    engineStep s = if s.errorFlags = 0#3 then .next (s.toPhase .pack) else .next (s.raiseErrors s.errorFlags) := by
  simp [engineStep, h, stepValidate]

theorem engineStep_pack {s : State} (h : s.phase = .pack) (hl : inLenSet s.entLen = true) :
    engineStep s = .next ((s.setMsg (entropyBitPacker s.ebuf s.entLen)).toPhase .hash) := by
  simp [engineStep, h, stepPack, hl]

theorem engineStep_hash {s : State} (h : s.phase = .hash) (hl : inLenSet s.entLen = true) :
    engineStep s = .next ((s.setDigest (sha256HashUnit (shaMsg s.msg) (shaNbytes s.entLen))).toPhase .csum) := by
  simp [engineStep, h, stepHash, hl]

theorem engineStep_csum {s : State} (h : s.phase = .csum) (hl : inLenSet s.entLen = true) :
    engineStep s = .next ((s.setChecksum (checksumExtractor s.digest (cslen s.entLen))).toPhase .concat) := by
  simp [engineStep, h, stepCsum, hl]

theorem engineStep_concat {s : State} (h : s.phase = .concat) (hl : inLenSet s.entLen = true) :
    engineStep s = .next
      ((s.setFull (entropyChecksumConcatenator s.ebuf s.cs s.entLen)).toPhase .index) := by
  simp [engineStep, h, stepConcat, hl]

theorem engineStep_index {s : State} {w : Word} (h : s.phase = .index) (hl : inLenSet s.entLen = true)
    (hk : s.k.toNat < nw s.entLen) (hw : s.wl.read (bitPartitioner11 s.full s.k.toNat).toNat = some w) :
    engineStep s = .next (s.storeResult s.k.toNat (bitPartitioner11 s.full s.k.toNat) w).nextGroup := by
  simp [engineStep, h, stepIndex, hl, hk, wordlistIndexer, hw]

/-- The inversion of an engine step that answers a next state. -/
theorem engineStep_cases {s t : State} (h : engineStep s = .next t) :
    (s.phase = .idle ∧ t = s) ∨
    (s.phase = .validate ∧ s.errorFlags = 0#3 ∧ t = s.toPhase .pack) ∨
    (s.phase = .validate ∧ s.errorFlags ≠ 0#3 ∧ t = s.raiseErrors s.errorFlags) ∨
    (s.phase = .pack ∧ inLenSet s.entLen = true ∧
      t = (s.setMsg (entropyBitPacker s.ebuf s.entLen)).toPhase .hash) ∨
    (s.phase = .hash ∧ inLenSet s.entLen = true ∧
      t = (s.setDigest (sha256HashUnit (shaMsg s.msg) (shaNbytes s.entLen))).toPhase .csum) ∨
    (s.phase = .csum ∧ inLenSet s.entLen = true ∧
      t = (s.setChecksum (checksumExtractor s.digest (cslen s.entLen))).toPhase .concat) ∨
    (s.phase = .concat ∧ inLenSet s.entLen = true ∧
      t = (s.setFull (entropyChecksumConcatenator s.ebuf s.cs s.entLen)).toPhase .index) ∨
    (s.phase = .index ∧ inLenSet s.entLen = true ∧ s.k.toNat < nw s.entLen ∧
      ∃ w, s.wl.read (bitPartitioner11 s.full s.k.toNat).toNat = some w ∧
        t = (s.storeResult s.k.toNat (bitPartitioner11 s.full s.k.toNat) w).nextGroup) := by
  cases hp : s.phase with
  | idle => rw [engineStep_idle hp] at h; exact .inl ⟨rfl, by simpa using h.symm⟩
  | validate =>
    rw [engineStep_validate hp] at h
    by_cases he : s.errorFlags = 0#3
    · exact .inr (.inl ⟨rfl, he, by simpa [he] using h.symm⟩)
    · exact .inr (.inr (.inl ⟨rfl, he, by simpa [he] using h.symm⟩))
  | pack =>
    by_cases hl : inLenSet s.entLen = true
    · rw [engineStep_pack hp hl] at h
      exact .inr (.inr (.inr (.inl ⟨rfl, hl, by simpa using h.symm⟩)))
    · simp [engineStep, hp, stepPack, hl] at h
  | hash =>
    by_cases hl : inLenSet s.entLen = true
    · rw [engineStep_hash hp hl] at h
      exact .inr (.inr (.inr (.inr (.inl ⟨rfl, hl, by simpa using h.symm⟩))))
    · simp [engineStep, hp, stepHash, hl] at h
  | csum =>
    by_cases hl : inLenSet s.entLen = true
    · rw [engineStep_csum hp hl] at h
      exact .inr (.inr (.inr (.inr (.inr (.inl ⟨rfl, hl, by simpa using h.symm⟩)))))
    · simp [engineStep, hp, stepCsum, hl] at h
  | concat =>
    by_cases hl : inLenSet s.entLen = true
    · rw [engineStep_concat hp hl] at h
      exact .inr (.inr (.inr (.inr (.inr (.inr (.inl ⟨rfl, hl, by simpa using h.symm⟩))))))
    · simp [engineStep, hp, stepConcat, hl] at h
  | index =>
    by_cases hl : inLenSet s.entLen = true
    · by_cases hk : s.k.toNat < nw s.entLen
      · cases hw : s.wl.read (bitPartitioner11 s.full s.k.toNat).toNat with
        | some w =>
          rw [engineStep_index hp hl hk hw] at h
          exact .inr (.inr (.inr (.inr (.inr (.inr (.inr ⟨rfl, hl, hk, w, rfl, by simpa using h.symm⟩))))))
        | none => simp [engineStep, hp, stepIndex, hl, hk, wordlistIndexer, hw] at h
      · simp [engineStep, hp, stepIndex, hl, hk] at h
    · simp [engineStep, hp, stepIndex, hl] at h

/-- What the end of an INDEX step changes. -/
theorem nextGroup_cases (s : State) :
    (s.k.toNat + 1 = nw s.entLen ∧ s.nextGroup = s.publish (nw s.entLen)) ∨
    (s.k.toNat + 1 ≠ nw s.entLen ∧ s.nextGroup = s.advanceK) := by
  by_cases h : s.k.toNat + 1 = nw s.entLen
  · exact .inl ⟨h, by simp [State.nextGroup, h]⟩
  · exact .inr ⟨h, by simp [State.nextGroup, h]⟩

/-- Which error flags VALIDATE computes (42_encode.md R77). -/
theorem getLsbD_errorFlags (s : State) : (s.errorFlags.getLsbD 0 = true ↔ s.len.toNat ∉ [128, 160, 192, 224, 256]) ∧ (s.errorFlags.getLsbD 1 = true ↔ s.badch = true) ∧ (s.errorFlags.getLsbD 2 = true ↔ s.wlcnt.toNat ≠ 2048) := by
  have hb : ∀ a b c : Bool, (BitVec.ofBool a ++ BitVec.ofBool b ++ BitVec.ofBool c).getLsbD 0 = c ∧ (BitVec.ofBool a ++ BitVec.ofBool b ++ BitVec.ofBool c).getLsbD 1 = b ∧ (BitVec.ofBool a ++ BitVec.ofBool b ++ BitVec.ofBool c).getLsbD 2 = a := by decide
  obtain ⟨h0, h1, h2⟩ := hb s.wordlistError s.characterError s.lengthError
  unfold State.errorFlags
  rw [h0, h1, h2]
  refine ⟨?_, Iff.rfl, ?_⟩
  · simp [State.lengthError, inLenSet, State.entLen, Config.lenSet]
  · simp [State.wordlistError]

/-- The end of an INDEX step writes no input of the run. -/
theorem nextGroup_inputs (s : State) : s.nextGroup.ebuf = s.ebuf ∧ s.nextGroup.len = s.len ∧ s.nextGroup.badch = s.badch ∧ s.nextGroup.wl = s.wl ∧ s.nextGroup.wlcnt = s.wlcnt ∧ s.nextGroup.ill = s.ill := by
  rcases nextGroup_cases s with ⟨_, e⟩ | ⟨_, e⟩ <;> rw [e] <;> simp

end Sys2Proof.Machine
end

