-- ==== Sys2Proof/Laws/Exec.lean ====
section
/-! SUPPORT. What each command's meaning answers, and the inversion of `accept` and `step`. -/

namespace Sys2Proof.Machine

@[simp] theorem exec_nop (s : State) : exec .nop s = .next s := rfl

@[simp] theorem exec_clr (s : State) : exec .clr s = .next s.clearEntropy.clearStatus.clearIllegal := rfl

@[simp] theorem exec_push (c : Byte) (s : State) :
    exec (.push c) s = .next ((s.storeBit s.pushCell (symbolBit c)).countSymbol c) := rfl

@[simp] theorem exec_enc (s : State) : exec .enc s = .next (s.clearStatus.toPhase .validate) := rfl

@[simp] theorem exec_inv (s : State) : exec .inv s = .next (s.flipEntropy s.storedLen) := rfl

@[simp] theorem exec_wlclr (s : State) : exec .wlclr s = .next s.forgetEntries := rfl

@[simp] theorem exec_wlapp (s : State) :
    exec .wlapp s = .next (s.storeEntry s.appendCell s.wdata).countEntry := rfl

@[simp] theorem present_eq (s : State) (rest : List HostMove) (w : Word) :
    s.present rest w = (s.withHost rest).sampleWdata w := rfl

/-- An accepted word runs the decoded command, or is illegal and only sets `ILL`. -/
theorem accept_cases {c : CmdWord} {s t : State} (h : accept c s = .next t) :
    (∃ i, decode c = .ok i ∧ exec i s = .next t) ∨ (∃ e, decode c = .error e ∧ t = s.markIllegal) := by
  unfold accept at h
  cases hd : decode c with
  | ok i => rw [hd] at h; exact .inl ⟨i, rfl, h⟩
  | error e => rw [hd] at h; exact .inr ⟨e, rfl, by simpa using h.symm⟩

/-- Accepting a word always answers a next state. -/
theorem accept_next (c : CmdWord) (s : State) : ∃ t, accept c s = .next t := by
  unfold accept
  cases decode c with
  | ok i => cases i <;> exact ⟨_, rfl⟩
  | error e => exact ⟨_, rfl⟩

@[simp] theorem withHost_host_self (s : State) : s.withHost s.host = s := rfl

theorem step_reset {s : State} {rest : List HostMove} (h : s.host = .reset :: rest) :
    step s = .next (s.withHost rest).resetEdge := by
  simp only [step, h]

theorem step_hold {s : State} {c : CmdWord} {d : Word} {rest : List HostMove} (h : s.host = .hold c d :: rest) :
    step s = if s.phase = .idle then accept c (s.present rest d) else engineStep s := by
  simp only [step, h]

theorem step_once {s : State} {c : CmdWord} {d : Word} {rest : List HostMove} (h : s.host = .once c d :: rest) :
    step s = if s.phase = .idle then accept c (s.present rest d) else engineStep (s.withHost rest) := by
  simp only [step, h]

theorem step_quiet {s : State} {rest : List HostMove} (h : s.host = .quiet :: rest) :
    step s = engineStep (s.withHost rest) := by
  simp only [step, h]

theorem step_nil {s : State} (h : s.host = []) : step s = engineStep s := by
  simp only [step, h]

/-- Everything a step can do: a reset edge, a word accepted by an idle block, or an engine step (which changes nothing
when the block is idle) with the coming moves kept or their first one spent. -/
theorem step_cases (s : State) :
    (∃ rest, s.host = .reset :: rest ∧ step s = .next (s.withHost rest).resetEdge) ∨
    (s.phase = .idle ∧ ∃ c d rest, (s.host = .hold c d :: rest ∨ s.host = .once c d :: rest) ∧
      step s = accept c (s.present rest d)) ∨
    (∃ h, (h = s.host ∨ ∃ m, s.host = m :: h) ∧ (∀ m rest, s.host = m :: rest → m ≠ .reset) ∧
      (s.phase = .idle → ∀ c d rest, s.host ≠ .hold c d :: rest ∧ s.host ≠ .once c d :: rest) ∧
      step s = engineStep (s.withHost h)) := by
  rcases hh : s.host with _ | ⟨m, rest⟩
  · refine .inr (.inr ⟨s.host, .inl hh, by simp, by simp, ?_⟩)
    rw [withHost_host_self, step_nil hh]
  · cases m with
    | reset => exact .inl ⟨rest, rfl, step_reset hh⟩
    | quiet => exact .inr (.inr ⟨rest, by simp, by simp, by simp, step_quiet hh⟩)
    | hold c d =>
      by_cases hp : s.phase = .idle
      · exact .inr (.inl ⟨hp, c, d, rest, by simp, by simp [step_hold hh, hp]⟩)
      · refine .inr (.inr ⟨s.host, .inl hh, by simp, by simp [hp], ?_⟩)
        rw [withHost_host_self, step_hold hh, if_neg hp]
    | once c d =>
      by_cases hp : s.phase = .idle
      · exact .inr (.inl ⟨hp, c, d, rest, by simp, by simp [step_once hh, hp]⟩)
      · exact .inr (.inr ⟨rest, by simp, by simp, by simp [hp], by rw [step_once hh, if_neg hp]⟩)

end Sys2Proof.Machine
end

