-- ==== Sys2Proof/Laws/Memory.lean ====
section
/-! SUPPORT. The laws of the wordlist memory: a read after a write, and the canonical form. -/

namespace Sys2Proof.Machine

@[simp] theorem Memory.read_nil (a : Nat) : Memory.read [] a = none := rfl

/-- A read after a write gives the written entry at its cell and the old one everywhere else. -/
theorem Memory.read_write (m : Memory) (a b : Nat) (w : Word) :
    (m.write a w).read b = if b = a then some w else m.read b := by
  induction m with
  | nil => by_cases h : b = a <;> simp [Memory.write, Memory.read, h]
  | cons c rest ih =>
    obtain ⟨x, v⟩ := c
    simp only [Memory.write]
    split
    · by_cases h : b = a <;> simp [Memory.read, h]
    · split
      · rename_i h; subst h
        by_cases h : b = a <;> simp [Memory.read, h]
      · rename_i _ hne
        simp only [Memory.read, ih]
        by_cases h : b = x
        · subst h; simp [Ne.symm hne]
        · simp [h]

theorem Memory.wfFrom_mono {lo lo' : Nat} (m : Memory) (hle : lo ≤ lo') (h : Memory.wfFrom lo' m = true) :
    Memory.wfFrom lo m = true := by
  cases m with
  | nil => rfl
  | cons c rest =>
    simp only [Memory.wfFrom, Bool.and_eq_true, decide_eq_true_eq] at h ⊢
    exact ⟨⟨hle.trans h.1.1, h.1.2⟩, h.2⟩

theorem Memory.wfFrom_write (m : Memory) {lo a : Nat} (w : Word) (hlo : lo ≤ a) (ha : a < Config.wlSize)
    (h : Memory.wfFrom lo m = true) : Memory.wfFrom lo (m.write a w) = true := by
  induction m generalizing lo with
  | nil => simp [Memory.write, Memory.wfFrom, hlo, ha]
  | cons c rest ih =>
    obtain ⟨x, v⟩ := c
    simp only [Memory.wfFrom, Bool.and_eq_true, decide_eq_true_eq] at h
    simp only [Memory.write]
    split
    · rename_i hlt
      simp [Memory.wfFrom, hlo, ha, h.1.2, h.2, Nat.succ_le_of_lt hlt]
    · split
      · rename_i heq; subst heq
        simp [Memory.wfFrom, h.1.1, h.1.2, h.2]
      · rename_i hlt hne
        simp [Memory.wfFrom, h.1.1, h.1.2, ih (by omega) h.2]

/-- A write to a cell of `WL` keeps the canonical form. -/
theorem Memory.wf_write (m : Memory) {a : Nat} (w : Word) (ha : a < Config.wlSize) (h : m.wf = true) :
    (m.write a w).wf = true :=
  Memory.wfFrom_write m w (Nat.zero_le a) ha h

theorem Memory.wf_nil : Memory.wf [] = true := rfl

theorem Memory.read_of_lt (m : Memory) {lo a : Nat} (h : Memory.wfFrom lo m = true) (ha : a < lo) :
    m.read a = none := by
  induction m generalizing lo with
  | nil => rfl
  | cons c rest ih =>
    obtain ⟨x, v⟩ := c
    simp only [Memory.wfFrom, Bool.and_eq_true, decide_eq_true_eq] at h
    have : a ≠ x := by omega
    simp only [Memory.read, this, if_false]
    exact ih h.2 (by omega)

/-- No cell outside `WL` is listed in a canonical memory. -/
theorem Memory.read_outside (m : Memory) {lo a : Nat} (h : Memory.wfFrom lo m = true) (ha : Config.wlSize ≤ a) :
    m.read a = none := by
  induction m generalizing lo with
  | nil => rfl
  | cons c rest ih =>
    obtain ⟨x, v⟩ := c
    simp only [Memory.wfFrom, Bool.and_eq_true, decide_eq_true_eq] at h
    have : a ≠ x := by omega
    simp only [Memory.read, this, if_false]
    exact ih h.2

/-- Canonical memories that read alike are equal. -/
theorem Memory.ext_read {lo : Nat} (m m' : Memory) (h : Memory.wfFrom lo m = true)
    (h' : Memory.wfFrom lo m' = true) (hr : ∀ a, m.read a = m'.read a) : m = m' := by
  induction m generalizing lo m' with
  | nil =>
    cases m' with
    | nil => rfl
    | cons c rest => simpa [Memory.read] using hr c.1
  | cons c rest ih =>
    cases m' with
    | nil => simpa [Memory.read] using hr c.1
    | cons c' rest' =>
      obtain ⟨x, v⟩ := c
      obtain ⟨x', v'⟩ := c'
      simp only [Memory.wfFrom, Bool.and_eq_true, decide_eq_true_eq] at h h'
      have hx : x = x' := by
        by_contra hne
        rcases Nat.lt_or_gt_of_ne hne with hlt | hlt
        · have := hr x
          simp [Memory.read, hne, Memory.read_of_lt rest' h'.2 (show x < x' + 1 by omega)] at this
        · have := hr x'
          simp [Memory.read, Ne.symm hne, Memory.read_of_lt rest h.2 (show x' < x + 1 by omega)] at this
      subst hx
      have hv : v = v' := by simpa [Memory.read] using hr x
      subst hv
      have : rest = rest' := by
        refine ih rest' h.2 h'.2 fun a => ?_
        by_cases ha : a = x
        · subst ha
          rw [Memory.read_of_lt rest h.2 (Nat.lt_succ_self a), Memory.read_of_lt rest' h'.2 (Nat.lt_succ_self a)]
        · simpa [Memory.read, ha] using hr a
      rw [this]

end Sys2Proof.Machine
end

