-- ==== Sys2Proof/Laws/Operands.lean ====
section
/-! SUPPORT. The counters, and the cells the appending commands store to. -/

namespace Sys2Proof.Machine

theorem toNat_saturatingInc {n : Nat} (top : Nat) (x : BitVec n) (h : top < 2 ^ n) :
    (saturatingInc top x).toNat = min (x.toNat + 1) top := by
  rw [saturatingInc, BitVec.toNat_ofNat]
  exact Nat.mod_eq_of_lt (by omega)

/-- `LEN` saturates at 511 (45_common_laws.md R105). -/
@[simp] theorem toNat_lenInc (x : BitVec 9) : (saturatingInc Config.lenMax x).toNat = min (x.toNat + 1) 511 :=
  toNat_saturatingInc _ _ (by decide)

/-- `WLCNT` saturates at 4095 (R105). -/
@[simp] theorem toNat_wlcntInc (x : BitVec 12) :
    (saturatingInc Config.wlCntMax x).toNat = min (x.toNat + 1) 4095 :=
  toNat_saturatingInc _ _ (by decide)

theorem pushCell_eq_some (s : State) (c : Nat) :
    s.pushCell = some c ↔ c = s.len.toNat ∧ s.len.toNat < 256 := by
  simp only [State.pushCell, State.entLen, Config.ebufCap]
  by_cases h : s.len.toNat < 256 <;> simp [h, eq_comm]

theorem pushCell_eq_none (s : State) : s.pushCell = none ↔ 256 ≤ s.len.toNat := by
  by_cases h : s.len.toNat < 256 <;> simp [State.pushCell, State.entLen, h]
  omega

theorem appendCell_eq_some (s : State) (c : Nat) :
    s.appendCell = some c ↔ c = s.wlcnt.toNat ∧ s.wlcnt.toNat < 2048 := by
  simp only [State.appendCell, Config.wlSize]
  by_cases h : s.wlcnt.toNat < 2048 <;> simp [h, eq_comm]

theorem appendCell_eq_none (s : State) : s.appendCell = none ↔ 2048 ≤ s.wlcnt.toNat := by
  simp [State.appendCell, Config.wlSize]

/-- A symbol is valid when its code is that of '0' or of '1'. -/
theorem symbolValid_iff (c : Byte) : symbolValid c = true ↔ c = 0x30#8 ∨ c = 0x31#8 := by
  simp [symbolValid, Config.ch0, Config.ch1]

theorem storedLen_eq (s : State) : s.storedLen = min s.len.toNat 256 := rfl

end Sys2Proof.Machine
end

