-- ==== Sys2Proof/Laws/Invariant.lean ====
section
/-! SUPPORT. Which operations keep the invariant of Safety.lean (10_state.md R35), one lemma per operation. -/

namespace Sys2Proof.Machine

/-- The coming moves are no part of the invariant. -/
theorem inv_withHost {s : State} (h : s.Inv) (x : List HostMove) : (s.withHost x).Inv := by
  obtain ⟨h1,h2,h3,h4,h5,h6,h7,h8,h9⟩ := h
  exact ⟨h1,h2,h3,h4,h5,h6,h7,h8,h9⟩

/-- Nor is the sampled operand. -/
theorem inv_sampleWdata {s : State} (h : s.Inv) (x : Word) : (s.sampleWdata x).Inv := by
  obtain ⟨h1,h2,h3,h4,h5,h6,h7,h8,h9⟩ := h
  exact ⟨h1,h2,h3,h4,h5,h6,h7,h8,h9⟩

/-- After a reset edge the invariant holds whatever the free values are. -/
theorem inv_resetEdge {s : State} (h : s.Inv) : s.resetEdge.Inv where
  wlCanonical := h.wlCanonical
  wlAppended := by simp
  entropyTail := by simp
  wordCount := by simp
  resultFinished := by simp
  errorFinished := by simp
  runHidden := by simp
  groupInRange := by simp
  inputsValid := by simp [Phase.transforming]

/-- `ILL` is no part of the invariant. -/
theorem inv_markIllegal {s : State} (h : s.Inv) : s.markIllegal.Inv := by
  obtain ⟨h1,h2,h3,h4,h5,h6,h7,h8,h9⟩ := h
  exact ⟨h1,h2,h3,h4,h5,h6,h7,h8,h9⟩

/-- A command accepted by an idle block keeps the invariant. -/
theorem inv_exec {s t : State} (i : Instr) (hp : s.phase = .idle) (h : s.Inv) (he : exec i s = .next t) : t.Inv := by
  cases i with
  | nop => simp at he; exact he ▸ h
  | clr =>
    simp at he; subst he
    exact ⟨h.1, h.2, by simp, by simp, by simp, by simp, by simp [hp], by simp [hp], by simp [hp, Phase.transforming]⟩
  | push c =>
    simp at he; subst he
    refine ⟨by simpa using h.1, by simpa using h.2, ?_, by simpa using h.4, by simpa using h.5, by simpa using h.6, by simp [hp], by simp [hp], by simp [hp, Phase.transforming]⟩
    intro i hi
    have hl : ((s.storeBit s.pushCell (symbolBit c)).countSymbol c).storedLen = min (min (s.len.toNat + 1) 511) 256 := by
      simp [storedLen_eq]
    rw [hl] at hi
    have h3 : min s.len.toNat 256 ≤ i → s.ebuf.cell i = false := h.entropyTail i
    cases hc : s.pushCell with
    | none => 
      rw [pushCell_eq_none] at hc
      simp only [State.countSymbol_ebuf, State.storeBit_none_ebuf]; apply h3; omega
    | some x =>
      rw [pushCell_eq_some] at hc
      have : i ≠ x := by omega
      simp only [State.countSymbol_ebuf, State.storeBit_some_ebuf, BitArray.cell_setCell, this, false_and, if_false]; apply h3; omega
  | enc =>
    simp at he; subst he
    exact ⟨h.1, h.2, h.3, by simp, by simp, by simp, by simp, by simp, by simp [Phase.transforming]⟩
  | inv =>
    simp at he; subst he
    refine ⟨h.1, h.2, ?_, h.4, h.5, h.6, h.7, h.8, h.9⟩
    intro i hi
    have hi : s.storedLen ≤ i := hi
    simp [BitArray.cell_flipBelow, h.entropyTail i hi]; omega
  | wlclr =>
    simp at he; subst he
    exact ⟨h.1, by simp, h.3, h.4, h.5, h.6, h.7, h.8, by simp [hp, Phase.transforming]⟩
  | wlapp =>
    simp at he; subst he
    refine ⟨?_, ?_, by simpa [State.storedLen, State.entLen] using h.3, by simpa using h.4, by simpa using h.5, by simpa using h.6, by simp [hp], by simp [hp], by simp [hp, Phase.transforming]⟩
    · cases hc : s.appendCell with
      | none => simpa using h.1
      | some x =>
        simp [State.appendCell] at hc
        simpa using Memory.wf_write _ _ (by omega) h.1
    · intro a ha
      have h2 : a < min s.wlcnt.toNat 2048 → _ := h.2 a
      simp only [State.countEntry_wlcnt, State.storeEntry_wlcnt, toNat_wlcntInc, Config.wlSize] at ha
      cases hc : s.appendCell with
      | none => 
        rw [appendCell_eq_none] at hc; exact h2 (by omega)
      | some x =>
        rw [appendCell_eq_some] at hc
        simp only [State.countEntry_wl, State.storeEntry_some_wl, Memory.read_write]
        split
        · rfl
        · exact h2 (by omega)

/-- The result buffer is no part of the invariant. -/
theorem inv_storeResult {s : State} (h : s.Inv) (k : Nat) (a : Index) (w : Word) : (s.storeResult k a w).Inv := by
  obtain ⟨h1,h2,h3,h4,h5,h6,h7,h8,h9⟩ := h
  exact ⟨h1,h2,h3,h4,h5,h6,h7,h8,h9⟩

/-- The end of a successful run. -/
theorem inv_publish {s : State} (h : s.Inv) (hp : s.phase = .index) (hl : inLenSet s.entLen = true) : (s.publish (nw s.entLen)).Inv := by
  have h7 := h.7 (by simp [hp])
  refine ⟨h.1, h.2, h.3, ?_, by simp [h7], by simp [h7], by simp, by simp, by simp [Phase.transforming]⟩
  rw [State.publish_nwords, toNat_ofNat_nw hl]; exact nw_mem hl

/-- The next group of a run. -/
theorem inv_advanceK {s : State} (h : s.Inv) (hp : s.phase = .index) (hk : s.k.toNat < nw s.entLen) (hk' : s.k.toNat + 1 ≠ nw s.entLen) : s.advanceK.Inv := by
  have h7 := h.7 (by simp [hp])
  have h8 := h.8 hp
  have h9 := h.9 (by simp [hp, Phase.transforming])
  refine ⟨h.1, h.2, h.3, h.4, by simp [h7], by simp [h7], by simp [h7], ?_, fun _ => h9⟩
  intro _
  refine ⟨?_, h8.2⟩
  show (s.k + 1#5).toNat < nw s.entLen
  rw [BitVec.toNat_add]
  have : s.k.toNat + 1 < 32 := by omega
  simp; omega

/-- VALIDATE without a cause. -/
theorem inv_enter {s : State} (h : s.Inv) (hp : s.phase = .validate) (hf : s.errorFlags = 0#3) : (s.toPhase .pack).Inv := by
  have h7 := h.7 (by simp [hp])
  have := (errorFlags_eq_zero s).1 hf
  exact ⟨h.1, h.2, h.3, h.4, by simp [h7], by simp [h7], by simp [h7], by simp, fun _ => this⟩

/-- VALIDATE with a cause. -/
theorem inv_raiseErrors {s : State} (h : s.Inv) (hp : s.phase = .validate) (e : BitVec 3) : (s.raiseErrors e).Inv := by
  have h7 := h.7 (by simp [hp])
  exact ⟨h.1, h.2, h.3, h.4, by simp [h7], by simp [h7], by simp, by simp, by simp [Phase.transforming]⟩

/-- The intermediate registers but `K` are no part of the invariant. -/
theorem inv_setMsg {s : State} (h : s.Inv) (m) : (s.setMsg m).Inv := by
  obtain ⟨h1,h2,h3,h4,h5,h6,h7,h8,h9⟩ := h
  exact ⟨h1,h2,h3,h4,h5,h6,h7,h8,h9⟩

theorem inv_setDigest {s : State} (h : s.Inv) (m) : (s.setDigest m).Inv := by
  obtain ⟨h1,h2,h3,h4,h5,h6,h7,h8,h9⟩ := h
  exact ⟨h1,h2,h3,h4,h5,h6,h7,h8,h9⟩

theorem inv_setChecksum {s : State} (h : s.Inv) (m) : (s.setChecksum m).Inv := by
  obtain ⟨h1,h2,h3,h4,h5,h6,h7,h8,h9⟩ := h
  exact ⟨h1,h2,h3,h4,h5,h6,h7,h8,h9⟩

/-- `K` is cleared outside the INDEX phase only. -/
theorem inv_setFull {s : State} (h : s.Inv) (hp : s.phase ≠ .index) (m) : (s.setFull m).Inv := by
  obtain ⟨h1,h2,h3,h4,h5,h6,h7,h8,h9⟩ := h
  exact ⟨h1,h2,h3,h4,h5,h6,h7,fun h => absurd h hp,h9⟩

/-- Moving on from one transforming phase to the next. -/
theorem inv_toPhase {s : State} (h : s.Inv) (hp : s.phase.transforming) (p : Phase)
    (hk : p = .index → s.k.toNat < nw s.entLen ∧ nw s.entLen ≤ 24) : (s.toPhase p).Inv := by
  have h7 := h.7 hp.1
  have h9 := h.9 hp
  exact ⟨h.1, h.2, h.3, h.4, by simp [h7], by simp [h7], fun _ => h7, hk, fun _ => h9⟩

end Sys2Proof.Machine
end

