-- ==== Sys2Proof/Laws/PerInstr.lean ====
section
/-! SUPPORT. One statement about every instruction as syntax, one lemma per constructor. -/

namespace Sys2Proof.Laws.WordShape

/-- The word of a well-formed instruction is legal (30_encoding.md R61) and has its bits 11:8 zero (R56). -/
def Statement (i : Instr) : Prop :=
  i.wellFormed = true → (encode i).wellFormed = true ∧ (encode i).zeroField = 0#4

theorem nop : Statement .nop := fun _ => by decide
theorem clr : Statement .clr := fun _ => by decide
theorem push (imm8 : Byte) : Statement (.push imm8) := by
  intro _
  revert imm8
  decide +kernel
theorem enc : Statement .enc := fun _ => by decide
theorem inv : Statement .inv := fun _ => by decide
theorem wlclr : Statement .wlclr := fun _ => by decide
theorem wlapp : Statement .wlapp := fun _ => by decide

end Sys2Proof.Laws.WordShape
end

