-- ==== Sys2Proof/Laws/Run.lean ====
section
/-! SUPPORT. Runs of several steps, and what a step of a busy block is. -/

namespace Sys2Proof.Machine

@[simp] theorem run_zero (s : State) : run 0 s = .next s := rfl

theorem run_succ_of_next {s t : State} (n : Nat) (h : step s = .next t) : run (n + 1) s = run n t := by
  simp only [run, h]

/-- A run that reaches a state goes on from it. -/
theorem run_add {s t : State} (m n : Nat) (h : run m s = .next t) : run (m + n) s = run n t := by
  induction m generalizing s with
  | zero => cases h; rw [Nat.zero_add]
  | succ m ih =>
    simp only [run] at h
    cases hs : step s with
    | next u =>
      rw [hs] at h
      rw [show m + 1 + n = (m + n) + 1 by omega, run_succ_of_next _ hs]
      exact ih h
    | fault f => rw [hs] at h; cases h
    | refused r => rw [hs] at h; cases h

/-- Without a reset among the coming moves, a step of a busy block is an engine step, and no reset is among the moves
still to come. -/
theorem step_busy {s : State} (hn : NoReset s) (hp : s.phase ≠ .idle) :
    ∃ h, HostMove.reset ∉ h ∧ step s = engineStep (s.withHost h) := by
  rcases step_cases s with ⟨rest, hh, _⟩ | ⟨hi, _⟩ | ⟨h, hm, _, _, e⟩
  · exact absurd (by simp [hh]) hn
  · exact absurd hi hp
  · refine ⟨h, ?_, e⟩
    rcases hm with rfl | ⟨m, hm⟩
    · exact hn
    · intro hr
      exact hn (by simp [hm, hr])

/-- A step that accepts a command is that command's meaning. -/
theorem step_accepts {s : State} {i : Instr} (h : Accepts s i) :
    ∃ c d rest, (s.host = .hold c d :: rest ∨ s.host = .once c d :: rest) ∧
      step s = exec i (s.present rest d) := by
  obtain ⟨c, ⟨hp, d, rest, hh⟩, hd⟩ := h
  refine ⟨c, d, rest, hh, ?_⟩
  rcases hh with hh | hh
  · rw [step_hold hh, if_pos hp, accept, hd]
  · rw [step_once hh, if_pos hp, accept, hd]

/-- An edge accepts one command at most (30_encoding.md R60). -/
theorem Accepts.unique {s : State} {i j : Instr} (hi : Accepts s i) (hj : Accepts s j) : i = j := by
  obtain ⟨c, ⟨_, d, r, h⟩, hc⟩ := hi
  obtain ⟨c', ⟨_, d', r', h'⟩, hc'⟩ := hj
  have : c = c' := by rcases h with h | h <;> rcases h' with h' | h' <;> simp_all
  subst this
  rw [hc] at hc'
  simpa using hc'

/-- A word is legal or illegal, not both. -/
theorem Accepts.not_illegal {s : State} {i : Instr} (hi : Accepts s i) : ¬AcceptsIllegal s := by
  rintro ⟨c', e, ⟨_, d', r', h'⟩, hc'⟩
  obtain ⟨c, ⟨_, d, r, h⟩, hc⟩ := hi
  have : c = c' := by rcases h with h | h <;> rcases h' with h' | h' <;> simp_all
  subst this
  rw [hc] at hc'
  simp at hc'

/-- Nothing is accepted at a reset edge (70_reset_and_hazards.md R126). -/
theorem AcceptsWord.not_resets {s : State} {c : CmdWord} (h : AcceptsWord s c) : ¬Resets s := by
  rintro ⟨r, hr⟩
  obtain ⟨_, d, r', h | h⟩ := h <;> simp [hr] at h

/-- Everything a step that answers a next state can be, in the terms claims use: a reset edge, an accepted command, an
accepted illegal word, or an engine step while nothing is accepted. -/
theorem step_kinds {s t : State} (hs : step s = .next t) :
    (Resets s ∧ ∃ rest, t = (s.withHost rest).resetEdge) ∨
    (¬Resets s ∧ s.phase = .idle ∧ ∃ i rest d, Accepts s i ∧ exec i (s.present rest d) = .next t) ∨
    (¬Resets s ∧ s.phase = .idle ∧ AcceptsIllegal s ∧ ∃ rest d, t = (s.present rest d).markIllegal) ∨
    (¬Resets s ∧ (∀ i, ¬Accepts s i) ∧ ¬AcceptsIllegal s ∧ ∃ h, engineStep (s.withHost h) = .next t) := by
  rcases step_cases s with ⟨rest, hh, e⟩ | ⟨hp, c, d, rest, hh, e⟩ | ⟨h, _, hr, hn, e⟩ <;> rw [e] at hs
  · exact .inl ⟨⟨rest, hh⟩, rest, by simpa using hs.symm⟩
  · have ha : AcceptsWord s c := ⟨hp, d, rest, hh⟩
    rcases accept_cases hs with ⟨i, hd, hi⟩ | ⟨x, hd, rfl⟩
    · exact .inr (.inl ⟨ha.not_resets, hp, i, rest, d, ⟨c, ha, hd⟩, hi⟩)
    · exact .inr (.inr (.inl ⟨ha.not_resets, hp, ⟨c, x, ha, hd⟩, rest, d, rfl⟩))
  · have hw : ∀ c, ¬AcceptsWord s c := by
      rintro c ⟨hp, d, rest, hh⟩
      rcases hh with hh | hh
      · exact (hn hp c d rest).1 hh
      · exact (hn hp c d rest).2 hh
    refine .inr (.inr (.inr ⟨?_, fun i ⟨c, hc, _⟩ => hw c hc, fun ⟨c, _, hc, _⟩ => hw c hc, h, hs⟩))
    rintro ⟨rest, hh⟩
    exact hr _ _ hh rfl

/-- The number of engine steps of a run depends on `LEN`, `BADCH` and `WLCNT` only (42_encode.md R77, R85). -/
theorem errorFlags_congr {s t : State} (h1 : t.len = s.len) (h2 : t.badch = s.badch) (h3 : t.wlcnt = s.wlcnt) :
    t.errorFlags = s.errorFlags := by
  simp only [State.errorFlags, State.lengthError, State.characterError, State.wordlistError, State.entLen, h1, h2, h3]

theorem runSteps_congr {s t : State} (h1 : t.len = s.len) (h2 : t.badch = s.badch) (h3 : t.wlcnt = s.wlcnt) :
    t.runSteps = s.runSteps := by
  simp only [State.runSteps, State.entLen, h1, errorFlags_congr h1 h2 h3]

end Sys2Proof.Machine
end

