-- ==== Sys2Proof/Laws/Sha256.lean ====
section
/-! SUPPORT. Lemmas about the padded block, the message schedule and the rounds of Machine/Sha256.lean. -/

namespace Sys2Proof.Sha256

open Sys2Proof.Machine

/-- A message of at most 55 bytes pads to one block (43_sha256.md R95). -/
theorem length_paddedBlock (m : List Byte) (hm : m.length ≤ 55) : (paddedBlock m).length = 64 := by
  simp [paddedBlock]; omega

/-- The last eight bytes are the bit length. -/
theorem paddedBlock_tail (m : List Byte) (hm : m.length ≤ 55) {j : Nat} (hj : j < 8) : (paddedBlock m).getD (56 + j) 0#8 = BitVec.ofNat 8 ((8 * m.length) >>> (8 * (7 - j))) := by
  have hl : (m ++ [0x80#8] ++ List.replicate (55 - m.length) 0x00#8).length = 56 := by simp; omega
  rw [paddedBlock, List.getD_append_right _ _ _ _ (by omega), hl, getD_map_range _ _ _ _ (by omega)]
  simp

/-- The bytes after 0x80 are zero, up to byte 55. -/
theorem paddedBlock_mid (m : List Byte) (hm : m.length ≤ 55) {j : Nat} (h1 : m.length < j) (hj : j < 56) : (paddedBlock m).getD j 0#8 = 0#8 := by
  have hl : (m ++ [0x80#8] ++ List.replicate (55 - m.length) 0x00#8).length = 56 := by simp; omega
  have hl2 : (m ++ [0x80#8]).length = m.length + 1 := by simp
  rw [paddedBlock, List.getD_append _ _ _ _ (by omega), List.getD_append_right _ _ _ _ (by omega)]
  rw [hl2, List.getD_replicate _ (by omega)]

theorem length_extendSchedule (n : Nat) (ws : List W32) : (extendSchedule n ws).length = ws.length + n := by
  induction n generalizing ws with
  | zero => rfl
  | succ n ih => rw [extendSchedule, ih]; simp; omega

/-- The words there were stay, behind the new ones. -/
theorem extendSchedule_old (n : Nat) (ws : List W32) (i : Nat) : (extendSchedule n ws).getD (n + i) 0 = ws.getD i 0 := by
  induction n generalizing ws i with
  | zero => simp [extendSchedule]
  | succ n ih =>
    rw [extendSchedule, show n + 1 + i = n + (i + 1) by omega, ih]; simp

/-- One more pair of a constant and a word. -/
theorem zip_take_succ {α β} (n : Nat) (xs : List α) (ys : List β) (h1 : n < xs.length) (h2 : n < ys.length) (a b) :
   (xs.take (n+1)).zip (ys.take (n+1)) = (xs.take n).zip (ys.take n) ++ [(xs.getD n a, ys.getD n b)] := by
  rw [List.take_succ_eq_append_getElem h1, List.take_succ_eq_append_getElem h2, List.zip_append (by simp; omega)]
  simp [h1, h2]

end Sys2Proof.Sha256
end

