-- ==== Sys2Proof/Tests/Slice0.lean ====
section
/-! SUPPORT. Tests, each of one step on a small state, with expected results from 95_test_vectors.md (the vector is named
in the comment), and for every statement with hypotheses a state and operands that meet them. -/

namespace Sys2Proof.Tests

open Sys2Proof.Machine

/-! ## Well-formedness: the three checks refuse an ill-formed word (30_encoding.md R61) -/

theorem test_wf_opcode_refused : CmdWord.opcodeAssigned 0x7000#16 = false ∧ CmdWord.wellFormed 0x7000#16 = false := by
  decide

theorem test_wf_zero_field_refused :
    CmdWord.zeroFieldClear 0x2130#16 = false ∧ CmdWord.wellFormed 0x2130#16 = false := by decide

theorem test_wf_low_byte_refused :
    CmdWord.lowFieldFits 0x3001#16 = false ∧ CmdWord.wellFormed 0x3001#16 = false := by decide

theorem test_wf_legal_words : CmdWord.wellFormed 0x6000#16 = true ∧ CmdWord.wellFormed 0x20FF#16 = true := by decide

/-! ## Decoding, every word written out bit by bit: opcode, 0000, low byte (R56, R59; section 2.8) -/

theorem test_decode_nop : decode 0b0000_0000_00000000#16 = .ok .nop := by decide
theorem test_decode_clr : decode 0b0001_0000_00000000#16 = .ok .clr := by decide
theorem test_decode_push_one : decode 0b0010_0000_00110001#16 = .ok (.push 0x31#8) := by decide
theorem test_decode_push_asymmetric : decode 0b0010_0000_10110010#16 = .ok (.push 0xB2#8) := by decide
theorem test_decode_enc : decode 0b0011_0000_00000000#16 = .ok .enc := by decide
theorem test_decode_inv : decode 0b0100_0000_00000000#16 = .ok .inv := by decide
theorem test_decode_wlclr : decode 0b0101_0000_00000000#16 = .ok .wlclr := by decide
theorem test_decode_wlapp : decode 0b0110_0000_00000000#16 = .ok .wlapp := by decide
theorem test_decode_illegal_low : decode 0x0001#16 = .error .nonzeroBits7to0 ∧ decode 0x6001#16 = .error .nonzeroBits7to0 := by
  decide
theorem test_decode_illegal_middle : decode 0x2130#16 = .error .nonzeroBits11to8 := by decide
theorem test_decode_illegal_opcode : decode 0x7000#16 = .error .reservedOpcode ∧ decode 0xFFFF#16 = .error .reservedOpcode := by
  decide

theorem test_encode_words :
    [encode .nop, encode .clr, encode (.push 0x30#8), encode .enc, encode .inv, encode .wlclr, encode .wlapp] =
      [0x0000#16, 0x1000#16, 0x2030#16, 0x3000#16, 0x4000#16, 0x5000#16, 0x6000#16] := by decide

/-- Bit 0 of the table's number is bit 0 of the word. -/
theorem test_decodeTableWord :
    decodeTableWord 16 0x2031 = some (.push 0x31#8) ∧ decodeTableWord 16 0x1000 = some .clr ∧
      decodeTableWord 16 0x0001 = none := by decide

/-! ## States and results of one step -/

/-- The next state of an outcome, if it is one. -/
def nextOf (o : Host.Outcome State Fault Refusal) : Option State :=
  match o with
  | .next t => some t
  | .fault _ => none
  | .refused _ => none

/-- The fault of an outcome, if it is one. -/
def faultOf (o : Host.Outcome State Fault Refusal) : Option Fault :=
  match o with
  | .next _ => none
  | .fault f => some f
  | .refused _ => none

/-- The reset state with a word presented, held, and a side operand. -/
def presenting (c : CmdWord) (d : Word) : State := { State.reset with host := [.hold c d] }

/-- The first `n` entries of the wordlist `SYN`: `WL[a] = a`. -/
def synFrom (lo n : Nat) : Memory := (List.range' lo n).map (fun a => (a, BitVec.ofNat Config.wordW a))

theorem synFrom_succ (lo n : Nat) : synFrom lo (n + 1) = (lo, BitVec.ofNat Config.wordW lo) :: synFrom (lo + 1) n := by
  simp [synFrom, List.range'_succ]

theorem read_synFrom (n lo a : Nat) (h1 : lo ≤ a) (h2 : a < lo + n) :
    (synFrom lo n).read a = some (BitVec.ofNat Config.wordW a) := by
  induction n generalizing lo with
  | zero => omega
  | succ n ih =>
    rw [synFrom_succ]
    by_cases h : a = lo
    · simp [Memory.read, h]
    · simp only [Memory.read, h, if_false]
      exact ih (lo + 1) (by omega) (by omega)

theorem wf_synFrom (n lo : Nat) (h : lo + n ≤ Config.wlSize) : Memory.wfFrom lo (synFrom lo n) = true := by
  induction n generalizing lo with
  | zero => rfl
  | succ n ih =>
    rw [synFrom_succ]
    have h' : lo < Config.wlSize := by omega
    simp only [Memory.wfFrom, Bool.and_eq_true, decide_eq_true_eq]
    exact ⟨⟨Nat.le_refl lo, h'⟩, ih (lo + 1) (by omega)⟩

/-- 128 zero bits delivered and the wordlist `SYN` loaded, `ENC` presented (program P1 before its run). -/
def loaded : State :=
  { State.reset with len := 128#9, wlcnt := 2048#12, wl := synFrom 0 2048, host := [.hold 0x3000#16 0] }

/-- A state in one phase of a run over `LEN` symbols, group `k`. -/
def inPhase (p : Phase) (len : BitVec 9) (k : BitVec 5) : State :=
  { State.reset with phase := p, len := len, wlcnt := 2048#12, k := k, wl := [(0, 7), (3, 9)] }

/-- The result of V-S1 under a wordlist with `WL[0] = 7` and `WL[3] = 9`, visible in the result buffer. -/
def finished : State :=
  { State.reset with len := 128#9, wlcnt := 0#12, nwords := 12#5, done := true,
                     midx := Regs.setEntry (Vector.replicate 24 0#11) 11 3#11 }

/-! ## The commands -/

/-- V-P12 is for `CLR`; here `NOP` on a state with symbols. -/
theorem test_nop_keeps : nextOf (exec .nop (inPhase .idle 3#9 0)) = some (inPhase .idle 3#9 0) := rfl

/-- V-P10: `LEN`, `BADCH`, `ERR`, `DONE`, `ILL` cleared; V-W8: the wordlist survives. -/
theorem test_clr :
    (nextOf (exec .clr { inPhase .idle 2#9 0 with badch := true, err := 5#3, done := true, ill := true })).map
      (fun t => (t.len, t.badch, t.err, t.done, t.ill, t.wlcnt)) =
      some (0#9, false, 0#3, false, false, 2048#12) := by decide

/-- V-P2, its third push: the bit goes to cell 2, counted from the left. -/
theorem test_push_one :
    (nextOf (exec (.push 0x31#8) { State.reset with len := 2#9, ebuf := 1#256 <<< 255 })).map
      (fun t => (t.len, (List.range 4).map t.ebuf.cell, t.badch)) =
      some (3#9, [true, false, true, false], false) := by decide +kernel

/-- V-P5: the code 0xB1 differs from '1' in its high bit only. -/
theorem test_push_high_bit :
    (nextOf (exec (.push 0xB1#8) State.reset)).map (fun t => (t.len, t.ebuf.cell 0, t.badch)) =
      some (1#9, false, true) := by decide +kernel

/-- R75: the accepting step of `ENC`. -/
theorem test_enc :
    (nextOf (exec .enc { finished with err := 0#3 })).map (fun t => (t.phase, t.done, t.nwords, t.busy)) =
      some (.validate, false, 0#5, true) := by decide

/-- V-I1: 1,0,1,1 becomes 0,1,0,0 and the cells above stay 0. -/
theorem test_inv :
    (nextOf (exec .inv { State.reset with len := 4#9, ebuf := 0b1011#256 <<< 252 })).map
      (fun t => ((List.range 6).map t.ebuf.cell, t.ebuf.cell 255, t.len)) =
      some ([false, true, false, false, false, false], false, 4#9) := by decide +kernel

/-- V-I6: all 256 cells of an overlong string are flipped. -/
theorem test_inv_overlong :
    (nextOf (exec .inv { State.reset with len := 257#9, ebuf := BitVec.allOnes 256 })).map (fun t => (t.ebuf, t.len)) =
      some (0#256, 257#9) := by decide +kernel

/-- V-W5: the count is cleared, the cells are kept. -/
theorem test_wlclr :
    (nextOf (exec .wlclr (inPhase .idle 0 0))).map (fun t => (t.wlcnt, t.wl.read 3)) = some (0#12, some 9) := rfl

/-- V-W6: the append overwrites cell 0 and the others are stale. -/
theorem test_wlapp_over_stale :
    (nextOf (exec .wlapp { inPhase .idle 0 0 with wlcnt := 0#12, wdata := 99 })).map
      (fun t => (t.wlcnt, t.wl.read 0, t.wl.read 3)) = some (1#12, some 99, some 9) := rfl

/-- V-W4: the 2049th entry is counted and not stored. -/
theorem test_wlapp_beyond_capacity :
    (nextOf (exec .wlapp { inPhase .idle 0 0 with wdata := 5 })).map (fun t => (t.wlcnt, t.wl)) =
      some (2049#12, [(0, 7), (3, 9)]) := rfl

/-! ## The command port -/

/-- V-W1: the side operand is sampled at the accepting edge. -/
theorem test_step_wlapp :
    (nextOf (step (presenting 0x6000#16 0x1234))).map (fun t => (t.wlcnt, t.wl.read 0, t.host)) =
      some (1#12, some 0x1234, []) := rfl

/-- Section 2.8: 0x3001 sets `ILL` and starts no run. -/
theorem test_step_illegal :
    (nextOf (step (presenting 0x3001#16 0))).map (fun t => (t.ill, t.busy, t.len)) = some (true, false, 0#9) := by decide

/-- R126: a reset edge inside a run. -/
theorem test_step_reset :
    (nextOf (step { inPhase .pack 128#9 0 with host := [.reset], ill := true })).map
      (fun t => (t.phase, t.len, t.wlcnt, t.ill)) = some (.idle, 0#9, 0#12, false) := by decide

/-- The host's probe: the very next step runs the word that is put in. -/
theorem test_withFetchWord :
    (nextOf (step (State.reset.withFetchWord 16 0x2031))).map (fun t => (t.len, t.ebuf.cell 0)) =
      some (1#9, true) := by decide +kernel

/-! ## The engine steps -/

/-- V-E15: all three causes together; V-E3: the character alone (`errcode` 1 and 2). -/
theorem test_validate_all_causes :
    (nextOf (engineStep { State.reset with phase := .validate, len := 129#9, badch := true })).map
      (fun t => (t.err, t.errcode, t.done, t.phase, t.nwords)) = some (0b111#3, 1#2, true, .idle, 0#5) := by decide

theorem test_validate_character :
    (nextOf (engineStep { inPhase .validate 128#9 0 with badch := true })).map (fun t => (t.err, t.errcode)) =
      some (0b010#3, 2#2) := by decide

/-- V-E9 and V-E4: a multiple of 8 that is not permitted; 2047 entries. -/
theorem test_validate_length :
    (nextOf (engineStep (inPhase .validate 136#9 0))).map (fun t => (t.err, t.errcode)) = some (0b001#3, 1#2) := by
  decide

theorem test_validate_wordlist :
    (nextOf (engineStep { inPhase .validate 128#9 0 with wlcnt := 2047#12 })).map (fun t => (t.err, t.errcode)) =
      some (0b100#3, 3#2) := by decide

/-- V-S5: `'0'x127 + '1'` packs to fifteen 0x00 and one 0x01. -/
theorem test_pack :
    (nextOf (engineStep { inPhase .pack 128#9 0 with ebuf := 1#256 <<< 128 })).map
      (fun t => (t.msg.toList.take 17, t.phase)) =
      some (List.replicate 15 0x00#8 ++ [0x01#8, 0x00#8], .hash) := by decide +kernel

/-- V-S3: the digest of sixteen 0x7F; the bytes of `MSG` beyond the message do not enter it. -/
theorem test_hash :
    (nextOf (engineStep { inPhase .hash 128#9 0 with msg := Vector.replicate 32 0x7F#8 })).map (fun t => t.digest) =
      some 0x87DCDE7FA6DF23E15FA7BA9B2A1F31408EAC832F4E615EA815AE92024E3D818B#256 := by decide +kernel

/-- V-S8: five bits of 0xDE. -/
theorem test_csum :
    (nextOf (engineStep { inPhase .csum 160#9 0 with digest := 0xDE#256 <<< 248 })).map (fun t => (t.cs, t.phase)) =
      some (0b11011#8, .concat) := by decide +kernel

/-- V-S3: `FULL[128..131] = 1,0,0,0`, then zeros. -/
theorem test_concat :
    (nextOf (engineStep { inPhase .concat 128#9 7 with cs := 0x08#8 })).map
      (fun t => ((List.range 6).map (fun i => t.full.cell (127 + i)), t.k, t.phase)) =
      some ([false, true, false, false, false, false], 0#5, .index) := by decide +kernel

/-- V-S1, its last group: index 3, then the run ends. -/
theorem test_index_last :
    (nextOf (engineStep { inPhase .index 128#9 11 with full := 0b11#264 <<< 132 })).map
      (fun t => (t.midx[11], t.nwords, t.done, t.phase, t.k)) = some (3#11, 12#5, true, .idle, 11#5) := by
  decide +kernel

/-- The same step: the word of cell 3. -/
theorem test_index_word :
    (nextOf (engineStep { inPhase .index 128#9 11 with full := 0b11#264 <<< 132 })).map (fun t => t.mword[11]) =
      some 9 := by
  have h : (bitPartitioner11 (0b11#264 <<< 132) 11).toNat = 3 := by decide +kernel
  rw [engineStep_index (w := 9) rfl (by decide) (by decide) (congrArg (Memory.read [(0, 7), (3, 9)]) h)]
  rfl

/-- A cell that was never appended stops the run by name (log entry 7). -/
theorem test_index_unspecified_cell :
    faultOf (engineStep { inPhase .index 128#9 11 with full := 0b111#264 <<< 132 }) =
      some (.wordlistCellUnspecified 7) := by
  decide +kernel

/-! ## Whole functions -/

/-- V-S3. -/
theorem test_mnemonic_7f :
    mnemonicIndices ((List.range 128).map (fun i => decide (i % 8 ≠ 0))) =
      [1019, 2015, 1790, 2039, 1983, 1533, 2031, 1919, 1019, 2015, 1790, 2040] := by decide +kernel

/-- V-S15. -/
theorem test_mnemonic_ones :
    mnemonicIndices (List.replicate 256 true) = List.replicate 23 2047 ++ [1967] := by decide +kernel

/-- Section 2.7: the padded block, the words 16 to 23, the working variables after round 1. -/
theorem test_padding :
    Sha256.paddedBlock (List.replicate 16 0x00#8) =
      List.replicate 16 0x00#8 ++ [0x80#8] ++ List.replicate 45 0x00#8 ++ [0x00#8, 0x80#8] := by decide +kernel

theorem test_schedule :
    ((Sha256.schedule (List.replicate 16 0x00#8)).drop 16).take 8 =
      [0x00000000#32, 0x00500000#32, 0x00000000#32, 0x11003422#32, 0x80000000#32, 0x1C910AAD#32, 0x00205080#32,
        0xA4040998#32] := by decide +kernel

theorem test_round :
    Sha256.rounds (Sha256.k256.take 2) [0#32, 0#32] =
      ⟨0x7AD96290#32, 0xFC08884D#32, 0x6A09E667#32, 0xBB67AE85#32, 0x9DF1B216#32, 0x98C7E2A2#32, 0x510E527F#32,
        0x9B05688C#32⟩ := by decide +kernel

/-- Program P1: the ports after the run, `res_sel` 11 and 12. -/
theorem test_result_port :
    (finished.resValid 11#5, finished.resIdx 11#5, finished.resValid 12#5, finished.resIdx 12#5) =
      (true, 3#11, false, 0#11) := by decide

theorem test_memory_wf_at_reset : State.reset.wl.wf = true := by decide

/-! ## Witnesses: a state and operands that meet the hypotheses of each statement that has some -/

/-- NopChangesNothing, CommandsAreHeldOffDuringARun. -/
theorem witness_held_word :
    ({ inPhase .pack 128#9 0 with host := [.hold 0x0000#16 0] } : State).host = .hold 0x0000#16 0 :: [] ∧
      ({ inPhase .pack 128#9 0 with host := [.hold 0x0000#16 0] } : State).phase ≠ .idle := by decide

/-- CommandsAreHeldOffDuringARun, its second clause. -/
theorem witness_once_word :
    ({ inPhase .pack 128#9 0 with host := [.once 0x2031#16 0] } : State).host = .once 0x2031#16 0 :: [] ∧
      ({ inPhase .pack 128#9 0 with host := [.once 0x2031#16 0] } : State).phase ≠ .idle := by decide

/-- PushAppendsOneSymbol: a cell is stored to at `LEN` 0 and 255, none at 256 and 511. -/
theorem witness_push_cells :
    (inPhase .idle 0#9 0).pushCell = some 0 ∧ (inPhase .idle 255#9 0).pushCell = some 255 ∧
      (inPhase .idle 256#9 0).pushCell = none ∧ (inPhase .idle 511#9 0).pushCell = none := by decide

/-- InvComplementsStoredCells: cells below and above the bound, at `LEN` 0, 128, 256 and 257. -/
theorem witness_inv_bounds :
    [(inPhase .idle 0#9 0).storedLen, (inPhase .idle 128#9 0).storedLen, (inPhase .idle 256#9 0).storedLen,
      (inPhase .idle 257#9 0).storedLen] = [0, 128, 256, 256] := by decide

/-- WlappAppendsOneEntry: a cell is stored to at `WLCNT` 0 and 2047, none at 2048 and 4095. -/
theorem witness_append_cells :
    [({ State.reset with wlcnt := 0#12 } : State).appendCell, ({ State.reset with wlcnt := 2047#12 } : State).appendCell,
      ({ State.reset with wlcnt := 2048#12 } : State).appendCell,
      ({ State.reset with wlcnt := 4095#12 } : State).appendCell] = [some 0, some 2047, none, none] := by decide

/-- DeliveredStringIsHeld: the string "1", valid and within the buffer. -/
theorem witness_delivered :
    (nextOf (execAll (.clr :: [0x31#8].map .push) State.reset)).map (fun t => (t.badch, t.ebuf.cell 0)) =
      some (false, true) := by decide +kernel

/-- AppendedEntriesAreHeld: one entry over a stale wordlist; cell 3 lies above. -/
theorem witness_appended :
    exec .wlclr (inPhase .idle 0 0) = .next (inPhase .idle 0 0).forgetEntries ∧
      (nextOf (appendAll [5] (inPhase .idle 0 0).forgetEntries)).map (fun t => (t.wl.read 0, t.wl.read 3)) =
        some (some 5, some 9) := ⟨rfl, rfl⟩

/-- DecodeEncodeRoundTrip. -/
theorem witness_round_trip :
    Instr.wellFormed (.push 0xFF#8) = true ∧ decode 0x20FF#16 = .ok (.push 0xFF#8) := by decide

/-- StepRunsTheDecodedCommand. -/
theorem witness_step_runs :
    (presenting 0x4000#16 3).phase = .idle ∧ (presenting 0x4000#16 3).host = .hold 0x4000#16 3 :: [] ∧
      decode 0x4000#16 = .ok .inv := ⟨rfl, rfl, by decide⟩

/-- IllegalWordOnlySetsIll. -/
theorem witness_step_illegal :
    (presenting 0x2130#16 3).phase = .idle ∧ (presenting 0x2130#16 3).host = .hold 0x2130#16 3 :: [] ∧
      decode 0x2130#16 = .error .nonzeroBits11to8 := ⟨rfl, rfl, by decide⟩

/-- IdleBlockWaits. -/
theorem witness_idle :
    State.reset.phase = .idle ∧ State.reset.host = [] ∧
      ({ State.reset with host := [.quiet] } : State).host = .quiet :: [] := by decide

/-- OnlyEncLeavesIdle. -/
theorem witness_leaves_idle :
    (nextOf (step (presenting 0x3000#16 0))).map (fun t => decide (t.phase ≠ .idle)) = some true ∧
      (presenting 0x3000#16 0).phase = .idle := by decide

/-- LengthFunctionTable. -/
theorem witness_lenset : 128 ∈ Config.lenSet ∧ 256 ∈ Config.lenSet := by decide

/-- ValidateReportsAllCauses: with a cause, and without. -/
theorem witness_validate :
    (inPhase .validate 127#9 0).phase = .validate ∧ (inPhase .validate 127#9 0).errorFlags = 1#3 ∧
      (inPhase .validate 128#9 0).errorFlags = 0#3 := by decide

/-- PackIsBigEndianFixedWidth: the lengths 128 and 256, where the byte 16 is zero and where no byte is. -/
theorem witness_pack :
    (inPhase .pack 128#9 0).phase = .pack ∧ (inPhase .pack 128#9 0).len.toNat ∈ [128, 160, 192, 224, 256] ∧
      (inPhase .pack 256#9 0).len.toNat ∈ [128, 160, 192, 224, 256] := by decide

/-- HashCoversExactlyTheMessage. -/
theorem witness_hash :
    (inPhase .hash 224#9 0).phase = .hash ∧ (inPhase .hash 224#9 0).len.toNat ∈ [128, 160, 192, 224, 256] := by decide

/-- ChecksumIsTheLeadingDigestBits: four bits, and the whole byte. -/
theorem witness_csum :
    (inPhase .csum 128#9 0).phase = .csum ∧ (inPhase .csum 128#9 0).len.toNat ∈ [128, 160, 192, 224, 256] ∧
      cslen (inPhase .csum 128#9 0).entLen = 4 ∧ cslen (inPhase .csum 256#9 0).entLen = 8 := by decide

/-- ConcatJoinsEntropyAndChecksum. -/
theorem witness_concat :
    (inPhase .concat 192#9 0).phase = .concat ∧ (inPhase .concat 192#9 0).len.toNat ∈ [128, 160, 192, 224, 256] := by
  decide

/-- IndexStoresOneWord: the first group and the last one. -/
theorem witness_index :
    (inPhase .index 128#9 0).phase = .index ∧ (inPhase .index 128#9 0).len.toNat ∈ [128, 160, 192, 224, 256] ∧
      (inPhase .index 128#9 0).k.toNat < (128 + 128 / 32) / 11 ∧
      (inPhase .index 128#9 11).k.toNat + 1 = (128 + 128 / 32) / 11 ∧
      (inPhase .index 128#9 0).wl.read
        (bitsVal ((List.range 11).map (fun i => (inPhase .index 128#9 0).full.cell (11 * 0 + i)))) = some 7 := by
  have h : bitsVal ((List.range 11).map (fun i => (inPhase .index 128#9 0).full.cell (11 * 0 + i))) = 0 := by
    decide +kernel
  exact ⟨rfl, by decide, by decide, by decide, congrArg (Memory.read [(0, 7), (3, 9)]) h⟩

/-- PhasesFollowTheFixedOrder: the choices that go on. -/
theorem witness_order :
    (nextOf (engineStep (inPhase .validate 128#9 0))).map (fun t => t.phase) = some .pack ∧
      (nextOf (engineStep (inPhase .index 128#9 0))).map (fun t => (t.phase, t.k)) = some (.index, 1#5) ∧
      (nextOf (engineStep (inPhase .index 128#9 11))).map (fun t => t.phase) = some .idle := by decide +kernel

/-- EncodingNeverWritesItsInputs. -/
theorem witness_never_writes :
    (nextOf (engineStep (inPhase .csum 128#9 0))).isSome = true ∧ (nextOf (exec .enc State.reset)).isSome = true := by
  decide +kernel

/-- StepStopsExactlyHere: one state that stops for each cause. -/
theorem witness_stops :
    faultOf (step (inPhase .pack 127#9 0)) = some (.lengthFunctionUndefined 127) ∧
      faultOf (step (inPhase .index 128#9 12)) = some (.groupUndefined 12) ∧
      faultOf (step { inPhase .index 128#9 0 with wl := [] }) = some (.wordlistCellUnspecified 0) := by decide +kernel

theorem loaded_accepts : Accepts loaded .enc := ⟨0x3000#16, ⟨rfl, 0, [], .inl rfl⟩, by decide⟩

theorem loaded_noReset : NoReset loaded := fun h => absurd (show HostMove.reset ∈ [HostMove.hold 0x3000#16 0] from h) (by decide)

/-- EncodeRunGivesTheMnemonic. -/
theorem witness_encode_run :
    Accepts loaded .enc ∧ NoReset loaded ∧ loaded.ValidInputs ∧ ∀ a < 2048, (loaded.wl.read a).isSome := by
  refine ⟨loaded_accepts, loaded_noReset, ⟨rfl, rfl, rfl⟩, fun a ha => ?_⟩
  have h : loaded.wl.read a = some (BitVec.ofNat Config.wordW a) := read_synFrom 2048 0 a (Nat.zero_le a) (by omega)
  rw [h]
  rfl

theorem presenting_enc_accepts (d : Word) : Accepts (presenting 0x3000#16 d) .enc :=
  ⟨0x3000#16, ⟨rfl, d, [], .inl rfl⟩, by decide⟩

theorem presenting_noReset (c : CmdWord) (d : Word) : NoReset (presenting c d) := by
  unfold NoReset presenting
  exact List.not_mem_cons_of_ne_of_not_mem HostMove.noConfusion List.not_mem_nil

/-- FailedRunLeavesNothing (V-E13's kind: no wordlist, no entropy). -/
theorem witness_failed_run :
    Accepts (presenting 0x3000#16 0) .enc ∧ NoReset (presenting 0x3000#16 0) ∧
      ¬(presenting 0x3000#16 0).ValidInputs :=
  ⟨presenting_enc_accepts 0, presenting_noReset _ _, fun h => absurd h.1 (by decide)⟩

/-- RunDependsOnItsArgumentsOnly: two failing runs that differ in a side operand and in old results. -/
theorem witness_depends :
    Accepts (presenting 0x3000#16 1) .enc ∧ NoReset (presenting 0x3000#16 1) ∧
      SameArguments (presenting 0x3000#16 0) (presenting 0x3000#16 1) ∧
      (nextOf (run (1 + (presenting 0x3000#16 0).runSteps) (presenting 0x3000#16 0))).isSome = true :=
  ⟨presenting_enc_accepts 1, presenting_noReset _ _, ⟨rfl, rfl, fun _ _ => rfl, rfl, fun _ _ _ => rfl⟩, by decide⟩

/-- The same arguments as `loaded`, with an old result, other intermediate registers and other moves of the host. -/
def loadedAfterRun : State :=
  { loaded with k := 11#5, digest := 1#256, nwords := 12#5, done := true, ill := true,
                midx := Vector.replicate 24 5#11, host := [.once 0x3000#16 5, .quiet, .once 0x2031#16 9] }

/-- RunDependsOnItsArgumentsOnly: two succeeding runs, of 17 engine steps (V-S1). -/
theorem witness_depends_success :
    Accepts loaded .enc ∧ Accepts loadedAfterRun .enc ∧ NoReset loaded ∧ NoReset loadedAfterRun ∧
      SameArguments loaded loadedAfterRun ∧ loaded.ValidInputs ∧
      (nextOf (run (1 + loaded.runSteps) loaded)).map (fun t => (t.nwords, t.err, t.midx[11])) =
        some (12#5, 0#3, 3#11) :=
  ⟨loaded_accepts, ⟨0x3000#16, ⟨rfl, 5, _, .inr rfl⟩, by decide⟩, loaded_noReset,
    (by simp [NoReset, loadedAfterRun]), ⟨rfl, rfl, fun _ _ => rfl, rfl, fun _ _ _ => rfl⟩, ⟨rfl, rfl, rfl⟩,
    by decide +kernel⟩

/-- EveryRunEnds, InvariantIsKept, InvariantStatesNeverStop: a busy state that meets the invariant. -/
theorem witness_invariant_busy :
    ({ State.reset with phase := .validate } : State).Inv ∧ NoReset { State.reset with phase := .validate } ∧
      ({ State.reset with phase := .validate } : State).phase ≠ .idle := by
  refine ⟨⟨rfl, ?_, ?_, by decide, by decide, by decide, by decide, by decide, ?_⟩, ?_, by decide⟩
  · intro a h
    exact absurd h (Nat.not_lt_zero a)
  · intro i _
    exact BitArray.cell_zero 256 i
  · intro h
    exact absurd rfl h.2
  · exact List.not_mem_nil

/-- EveryRunEnds, InvariantIsKept: the last INDEX step of a run over the wordlist `SYN`. -/
theorem witness_invariant_index :
    ({ loaded with phase := .index, k := 11#5, host := [] } : State).Inv := by
  refine ⟨wf_synFrom 2048 0 (by decide), ?_, ?_, by decide, by decide, by decide, by decide, by decide, ?_⟩
  · intro a h
    have ha : a < 2048 := h
    have h : loaded.wl.read a = some (BitVec.ofNat Config.wordW a) := read_synFrom 2048 0 a (Nat.zero_le a) (by omega)
    exact Option.isSome_iff_exists.2 ⟨_, h⟩
  · intro i _
    exact BitArray.cell_zero 256 i
  · intro _
    exact ⟨rfl, rfl, rfl⟩

theorem finished_inv : finished.Inv := by
  refine ⟨rfl, ?_, ?_, by decide, by decide, by decide, by decide, by decide, ?_⟩
  · intro a h
    exact absurd h (Nat.not_lt_zero a)
  · intro i _
    exact BitArray.cell_zero 256 i
  · intro h
    exact absurd rfl h.1

theorem finished_data : finished.DataInv := by
  refine ⟨by decide, fun h => absurd h (by decide), fun h => absurd h (by decide), fun h => absurd h (by decide),
    fun h => absurd h (by decide), fun h => absurd h (by decide), fun _ => ⟨List.replicate 128 false, ?_, ?_, ?_⟩⟩
  · rw [List.length_replicate]; decide
  · rw [List.length_replicate]; decide
  have h : mnemonicIndices (List.replicate 128 false) = List.replicate 11 0 ++ [3] := by decide +kernel
  unfold State.IndicesAre
  rw [h]
  decide

/-- ResultRederivesItsChecksum, DataInvariantIsKept: the result of V-S1. -/
theorem witness_result : finished.Inv ∧ finished.DataInv ∧ finished.nwords ≠ 0#5 :=
  ⟨finished_inv, finished_data, by decide⟩

/-- DataInvariantIsKept: a step from such a state. -/
theorem witness_data_step : step finished = .next finished := rfl

/-- PaddedBlockLayout: the shortest and the longest message. -/
theorem witness_padded : ([] : List Byte).length ≤ 55 ∧ (List.replicate 55 0xFF#8).length ≤ 55 := by decide

/-- ScheduleRecurrence: the first and the last computed word. -/
theorem witness_schedule : 16 ≤ 16 ∧ 63 < 64 := by decide

/-- CompressionIsSixtyFourRounds. -/
theorem witness_compression : (List.replicate 64 0x80000000#32).length = 64 := by decide

/-- LogicalFunctionsBitByBit, DigestIsTheEightWords: the last bit and the last word. -/
theorem witness_bits : 31 < 32 ∧ 7 < 8 := by decide

/-- StatusPorts: one state for each value of `errcode`. -/
theorem witness_errcode :
    [errorCode 0b000#3, errorCode 0b001#3, errorCode 0b110#3, errorCode 0b100#3] = [0#2, 1#2, 2#2, 3#2] := by decide

/-- EntropyReadPort: a selector at the bound. -/
theorem witness_entropy_port :
    finished.Inv ∧ min finished.len.toNat 256 ≤ (128#8).toNat := ⟨finished_inv, by decide⟩

/-- ResultReadPort: selectors below and at `NWORDS`, and from 24 on. -/
theorem witness_result_port :
    (11#5).toNat < finished.nwords.toNat ∧ finished.nwords.toNat ≤ (12#5).toNat ∧ finished.Inv ∧ 24 ≤ (24#5).toNat :=
  ⟨by decide, by decide, finished_inv, by decide⟩

/-- The statements on what changes a register: a reset edge, and what it leaves. -/
theorem witness_resets :
    Resets { inPhase .index 128#9 3 with host := [.reset] } ∧
      (nextOf (step { inPhase .index 128#9 3 with host := [.reset] })).map (fun t => (t.nwords, t.done, t.err, t.ill)) =
        some (0#5, false, 0#3, false) := ⟨⟨[], rfl⟩, by decide⟩

/-- The same statements: `CLR` and `ENC` accepted after a finished run. -/
theorem witness_accepts_clr :
    Accepts { finished with host := [.once 0x1000#16 0] } .clr ∧ Accepts { finished with host := [.hold 0x3000#16 0] } .enc ∧
      (nextOf (step { finished with host := [.once 0x1000#16 0] })).map (fun t => t.nwords) = some 0#5 :=
  ⟨⟨0x1000#16, ⟨rfl, 0, [], .inr rfl⟩, by decide⟩, ⟨0x3000#16, ⟨rfl, 0, [], .inl rfl⟩, by decide⟩, by decide⟩

/-- IllegalFlagChangesOnlyHere, its first clause. -/
theorem witness_accepts_illegal : AcceptsIllegal (presenting 0x7000#16 0) :=
  ⟨0x7000#16, .reservedOpcode, ⟨rfl, 0, [], .inl rfl⟩, by decide⟩

/-- WordCountChangesOnlyHere, DoneChangesOnlyHere: the last INDEX step, with no reset. -/
theorem witness_last_index :
    ¬Resets (inPhase .index 128#9 11) ∧ (inPhase .index 128#9 11).k.toNat + 1 = nw (inPhase .index 128#9 11).entLen ∧
      (nextOf (step (inPhase .index 128#9 11))).map (fun t => (t.nwords, t.done)) = some (12#5, true) :=
  ⟨(by rintro ⟨_, h⟩; cases h), by decide, by decide +kernel⟩

/-- ErrorFlagsChangeOnlyHere: a failing VALIDATE step. -/
theorem witness_failing_validate :
    (inPhase .validate 127#9 0).phase = .validate ∧ ¬(inPhase .validate 127#9 0).ValidInputs ∧
      (nextOf (step (inPhase .validate 127#9 0))).map (fun t => t.err) = some 1#3 :=
  ⟨rfl, fun h => absurd h.1 (by decide), by decide⟩

/-- The last clauses: a step that is none of these. -/
theorem witness_quiet_step :
    ¬Resets finished ∧ (∀ i, ¬Accepts finished i) ∧ ¬AcceptsIllegal finished ∧ step finished = .next finished :=
  ⟨(by rintro ⟨_, h⟩; cases h), (by rintro i ⟨_, ⟨_, _, _, h | h⟩, _⟩ <;> cases h),
    (by rintro ⟨_, _, ⟨_, _, _, h | h⟩, _⟩ <;> cases h), rfl⟩

/-- EntropyInputChangesOnlyHere: `BADCH` stays set through a later valid symbol. -/
theorem witness_badch_sticky :
    ({ presenting 0x2031#16 0 with badch := true } : State).badch = true ∧
      (nextOf (step { presenting 0x2031#16 0 with badch := true })).map (fun t => t.badch) = some true := by decide

/-- WordlistChangesOnlyHere: `WLCLR` accepted; a busy block. -/
theorem witness_wlclr :
    Accepts { inPhase .idle 0 0 with host := [.hold 0x5000#16 0] } .wlclr ∧
      (nextOf (step { inPhase .idle 0 0 with host := [.hold 0x5000#16 0] })).map (fun t => t.wl) =
        some [(0, 7), (3, 9)] := ⟨⟨0x5000#16, ⟨rfl, 0, [], .inl rfl⟩, by decide⟩, rfl⟩

/-- WordlistMemoryLaws: two canonical memories; the cells 0, 2047 and 2048. -/
theorem witness_memory :
    Memory.wf [(0, 7), (3, 9)] = true ∧ Memory.wf (Memory.write [(0, 7), (3, 9)] 2047 1) = true ∧
      Memory.read [(0, 7), (3, 9)] 2048 = none := by decide

/-- ResetEdgeFromAnyState. -/
theorem witness_reset_edge :
    ({ inPhase .hash 256#9 0 with host := [.reset, .hold 0x3000#16 0] } : State).host =
      .reset :: [.hold 0x3000#16 0] := rfl

end Sys2Proof.Tests
end

section
/-! PROOF. The laws of the wordlist memory (00_scope.md R8, 20_memory.md R37), from the lemmas of Laws/Memory.lean, which
are about a memory canonical from any first cell on; a canonical memory is one from cell 0 on. -/

namespace Sys2Proof.Machine

/-- Settles O50: each of the three laws is a lemma by induction on the list of cells, used here from cell 0 on and with
the size 2048 of `WL`. -/
theorem wordlistMemoryLaws : Obligations.WordlistMemoryLaws := by
  intro m hm
  refine ⟨fun a ha w => ⟨?keepsCanonical, ?readBack⟩, fun a ha => ?outside, fun m' hm' hread => ?extensional⟩
  case keepsCanonical => exact m.wf_write w ha hm
  case readBack => exact fun b => m.read_write a b w
  case outside => exact m.read_outside hm ha
  case extensional => exact m.ext_read m' hm hm' hread

end Sys2Proof.Machine
end

section
/-! PROOF. What a command's meaning and an engine step do to each group of registers, said once; the proofs about the
status registers, the entropy input and the invariants use these lemmas. -/

namespace Sys2Proof.Machine

/-! ## Commands -/

/-- Only `ENC` moves `PHASE` (10_state.md R17). -/
theorem exec_phase {i : Instr} {s t : State} (he : exec i s = .next t) :
    t.phase = if i = .enc then .validate else s.phase := by
  cases i <;> cases he <;> simp

/-- `CLR` and the acceptance of `ENC` clear the status (R24, R25, R26). -/
theorem exec_clears_status {i : Instr} {s t : State} (he : exec i s = .next t) (hi : i = .clr ∨ i = .enc) :
    t.nwords = 0#5 ∧ t.done = false ∧ t.err = 0#3 := by
  rcases hi with rfl | rfl <;> cases he <;> simp

/-- Every other command keeps the status. -/
theorem exec_keeps_status {i : Instr} {s t : State} (he : exec i s = .next t) (hc : i ≠ .clr) (hn : i ≠ .enc) :
    SameStatus s t := by
  cases i with
  | clr => exact absurd rfl hc
  | enc => exact absurd rfl hn
  | nop | push _ | inv | wlclr | wlapp => cases he; simp [SameStatus]

/-- No command writes the result buffer (R23). -/
theorem exec_keeps_midx {i : Instr} {s t : State} (he : exec i s = .next t) : t.midx = s.midx := by
  cases i <;> cases he <;> simp

/-- Every command but `CLR` keeps `ILL` (R27). -/
theorem exec_keeps_ill {i : Instr} {s t : State} (he : exec i s = .next t) (hc : i ≠ .clr) : t.ill = s.ill := by
  cases i with
  | clr => exact absurd rfl hc
  | nop | push _ | enc | inv | wlclr | wlapp => cases he; simp

/-- Every command but `CLR` leaves `BADCH` set (R14). -/
theorem exec_keeps_badch_set {i : Instr} {s t : State} (he : exec i s = .next t) (hc : i ≠ .clr)
    (hb : s.badch = true) : t.badch = true := by
  cases i with
  | clr => exact absurd rfl hc
  | nop | push _ | enc | inv | wlclr | wlapp => cases he; simp [badchAfter, hb]

/-- Every command but `CLR` and `PUSH` keeps `LEN` and `BADCH`, and the cells of `EBUF` too unless it is `INV`
(R12, R13, R14). -/
theorem exec_keeps_entropy {i : Instr} {s t : State} (he : exec i s = .next t) (hc : i ≠ .clr)
    (hp : ∀ c, i ≠ .push c) : t.len = s.len ∧ t.badch = s.badch ∧ (i ≠ .inv → t.ebuf = s.ebuf) := by
  cases i with
  | clr => exact absurd rfl hc
  | push c => exact absurd rfl (hp c)
  | nop | enc | inv | wlclr | wlapp => cases he; simp

/-! ## Engine steps -/

/-- An engine step writes no input of the run, nor `ILL` (42_encode.md R90). -/
theorem engineStep_keeps_inputs {s t : State} (h : engineStep s = .next t) :
    t.ebuf = s.ebuf ∧ t.len = s.len ∧ t.badch = s.badch ∧ t.wl = s.wl ∧ t.wlcnt = s.wlcnt ∧ t.ill = s.ill := by
  rcases engineStep_cases h with ⟨_, rfl⟩ | ⟨_, _, rfl⟩ | ⟨_, _, rfl⟩ | ⟨_, _, rfl⟩ | ⟨_, _, rfl⟩ | ⟨_, _, rfl⟩ |
    ⟨_, _, rfl⟩ | ⟨_, _, _, w, _, rfl⟩
  case inr.inr.inr.inr.inr.inr.inr => simpa using nextGroup_inputs (s.storeResult _ _ w)
  all_goals simp

end Sys2Proof.Machine
end

section
/-! PROOF. What a step does to the status registers `NWORDS`, `DONE` and `ERR` (10_state.md R24 to R26): one inversion
with four cases, from which the statements on each register are read off. -/

namespace Sys2Proof.Machine

/-- The edges that clear the status: reset, and the acceptance of `CLR` or `ENC`. -/
def ClearsStatus (s : State) : Prop := Resets s ∨ Accepts s .clr ∨ Accepts s .enc

/-- The next engine step is a VALIDATE step that ends the run (42_encode.md R77). -/
def FailsValidate (s : State) : Prop := s.phase = .validate ∧ ¬s.ValidInputs

/-- The next engine step is the last INDEX step of a run (42_encode.md R84). -/
def LastIndex (s : State) : Prop := s.phase = .index ∧ s.k.toNat + 1 = nw s.entLen

theorem Accepts.idle {s : State} {i : Instr} (h : Accepts s i) : s.phase = .idle := by
  obtain ⟨_, ⟨hp, _⟩, _⟩ := h
  exact hp

theorem Accepts.not_resets {s : State} {i : Instr} (h : Accepts s i) : ¬Resets s := by
  obtain ⟨_, hw, _⟩ := h
  exact hw.not_resets

theorem AcceptsIllegal.not_resets {s : State} (h : AcceptsIllegal s) : ¬Resets s := by
  obtain ⟨_, _, hw, _⟩ := h
  exact hw.not_resets

/-- Without a reset, only an idle block has its status cleared. -/
theorem ClearsStatus.idle {s : State} (h : ClearsStatus s) (hr : ¬Resets s) : s.phase = .idle := by
  rcases h with h | h | h
  · exact absurd h hr
  · exact h.idle
  · exact h.idle

theorem FailsValidate.not_idle {s : State} (h : FailsValidate s) : s.phase ≠ .idle := by
  simp [h.1]

theorem LastIndex.not_idle {s : State} (h : LastIndex s) : s.phase ≠ .idle := by
  simp [h.1]

/-- What an engine step does to the status: it ends a failing run, ends a successful one, or keeps the status and the
run going. -/
theorem engineStep_status {s t : State} (h : engineStep s = .next t) :
    (FailsValidate s ∧ t = s.raiseErrors s.errorFlags) ∨
    (LastIndex s ∧ inLenSet s.entLen = true ∧ ∃ w,
      t = (s.storeResult s.k.toNat (bitPartitioner11 s.full s.k.toNat) w).publish (nw s.entLen)) ∨
    (¬FailsValidate s ∧ ¬LastIndex s ∧ SameStatus s t ∧ (t.phase = .idle ↔ s.phase = .idle)) := by
  rcases engineStep_cases h with ⟨hp, rfl⟩ | ⟨hp, hf, rfl⟩ | ⟨hp, hf, rfl⟩ | ⟨hp, _, rfl⟩ | ⟨hp, _, rfl⟩ |
    ⟨hp, _, rfl⟩ | ⟨hp, _, rfl⟩ | ⟨hp, hl, _, w, _, rfl⟩
  case inr.inl =>
    have hv : s.ValidInputs := (errorFlags_eq_zero s).1 hf
    exact .inr (.inr ⟨fun hx => hx.2 hv, by simp [LastIndex, hp], by simp [SameStatus], by simp [hp]⟩)
  case inr.inr.inl => exact .inl ⟨⟨hp, fun hv => hf ((errorFlags_eq_zero s).2 hv)⟩, rfl⟩
  case inr.inr.inr.inr.inr.inr.inr =>
    have hF : ¬FailsValidate s := by simp [FailsValidate, hp]
    rcases nextGroup_cases (s.storeResult s.k.toNat (bitPartitioner11 s.full s.k.toNat) w) with ⟨hk, e⟩ | ⟨hk, e⟩ <;>
      rw [e]
    · exact .inr (.inl ⟨⟨hp, hk⟩, hl, w, rfl⟩)
    · exact .inr (.inr ⟨hF, fun hx => hk hx.2, by simp [SameStatus], by simp⟩)
  all_goals exact .inr (.inr ⟨by simp [FailsValidate, hp], by simp [LastIndex, hp], by simp [SameStatus], by simp [hp]⟩)

/-- What one step does to the status registers. -/
inductive StatusStep (s t : State) : Prop
  /-- Reset, `CLR` or `ENC` clears it. -/
  | cleared (clears : ClearsStatus s) (nwords : t.nwords = 0#5) (done : t.done = false) (err : t.err = 0#3)
  /-- A failing VALIDATE step reports its causes. -/
  | failed (stays : ¬ClearsStatus s) (fails : FailsValidate s) (nwords : t.nwords = s.nwords) (done : t.done = true)
      (err : t.err = s.errorFlags) (ends : t.phase = .idle)
  /-- The last INDEX step publishes the result. -/
  | finished (stays : ¬ClearsStatus s) (last : LastIndex s) (nwords : t.nwords.toNat = nw s.entLen)
      (done : t.done = true) (err : t.err = s.err) (ends : t.phase = .idle)
  /-- Any other step keeps it, and a run goes on. -/
  | kept (stays : ¬ClearsStatus s) (passes : ¬FailsValidate s) (goesOn : ¬LastIndex s) (same : SameStatus s t)
      (busy : s.phase ≠ .idle → t.phase ≠ .idle)

/-- The status registers in one step. -/
theorem step_status {s t : State} (hs : step s = .next t) : StatusStep s t := by
  rcases step_kinds hs with ⟨hr, rest, rfl⟩ | ⟨hr, hp, i, rest, d, ha, he⟩ | ⟨hr, hp, ha, rest, d, rfl⟩ |
    ⟨hr, hn, _, h, he⟩
  case inl => exact .cleared (.inl hr) (by simp) (by simp) (by simp)
  all_goals
    have notFailing (hi : s.phase = .idle) : ¬FailsValidate s := fun h => h.not_idle hi
    have notLast (hi : s.phase = .idle) : ¬LastIndex s := fun h => h.not_idle hi
  case inr.inl =>
    by_cases hi : i = .clr ∨ i = .enc
    · obtain ⟨h1, h2, h3⟩ := exec_clears_status he hi
      exact .cleared (.inr (by rcases hi with rfl | rfl <;> simp [ha])) h1 h2 h3
    · rw [not_or] at hi
      have stays : ¬ClearsStatus s := by
        rintro (h | h | h)
        · exact hr h
        · exact hi.1 (ha.unique h)
        · exact hi.2 (ha.unique h)
      exact .kept stays (notFailing hp) (notLast hp)
        (by simpa [SameStatus] using exec_keeps_status he hi.1 hi.2) (absurd hp)
  case inr.inr.inl =>
    have stays : ¬ClearsStatus s := by
      rintro (h | h | h)
      · exact hr h
      · exact h.not_illegal ha
      · exact h.not_illegal ha
    exact .kept stays (notFailing hp) (notLast hp) (by simp [SameStatus]) (absurd hp)
  case inr.inr.inr =>
    have stays : ¬ClearsStatus s := by
      rintro (h | h | h)
      · exact hr h
      · exact hn _ h
      · exact hn _ h
    rcases engineStep_status he with ⟨hf, rfl⟩ | ⟨hl, hL, w, rfl⟩ | ⟨hf, hl, hsame, hidle⟩
    · exact .failed stays hf (by simp) (by simp) (by simp [errorFlags_congr (State.withHost_len s h)]) (by simp)
    · exact .finished stays hl (toNat_ofNat_nw hL) (by simp) (by simp) (by simp)
    · exact .kept stays hf hl hsame fun hp hi => hp (hidle.1 hi)

/-- Settles O44: `NWORDS` in each of the four cases of a step; during a run and after an error the invariant
keeps it 0. -/
theorem wordCountChangesOnlyHere : Obligations.WordCountChangesOnlyHere := by
  intro s t hs
  refine ⟨fun hc => ?clears, fun hr hp hk => ?publishes, fun hr hc he hl => ?keeps, fun hi h => ?hidden⟩
  case clears =>
    cases step_status hs with
    | cleared _ hn => exact hn
    | failed stays | finished stays | kept stays => exact absurd hc stays
  case publishes =>
    cases step_status hs with
    | cleared clears => simp [clears.idle hr] at hp
    | failed _ fails => simp [fails.1] at hp
    | finished _ _ hn => exact hn
    | kept _ _ goesOn => exact absurd ⟨hp, hk⟩ goesOn
  case keeps =>
    cases step_status hs with
    | cleared clears => exact absurd clears (by simp [ClearsStatus, hr, hc, he])
    | failed _ _ hn => exact hn
    | finished _ last => exact absurd last hl
    | kept _ _ _ same => exact same.1
  case hidden =>
    rcases h with hp | he
    · exact (hi.runHidden hp).2.2
    · exact (hi.errorFinished he).2

/-- Settles O45: `DONE` in each of the four cases of a step. -/
theorem doneChangesOnlyHere : Obligations.DoneChangesOnlyHere := by
  intro s t hs
  refine ⟨fun hc => ?clears, fun hr hp ht => ?ends, fun hr hc he hn => ?keeps⟩
  case clears =>
    cases step_status hs with
    | cleared _ _ hd => exact hd
    | failed stays | finished stays | kept stays => exact absurd hc stays
  case ends =>
    cases step_status hs with
    | cleared clears => exact absurd (clears.idle hr) hp
    | failed _ _ _ hd | finished _ _ _ hd => exact hd
    | kept _ _ _ _ busy => exact absurd ht (busy hp)
  case keeps =>
    cases step_status hs with
    | cleared clears => exact absurd clears (by simp [ClearsStatus, hr, hc, he])
    | failed _ fails _ _ _ ends => exact absurd hn (by simp [fails.not_idle, ends])
    | finished _ last _ _ _ ends => exact absurd hn (by simp [last.not_idle, ends])
    | kept _ _ _ same => exact same.2.1

/-- Settles O46: `ERR` in each of the four cases of a step, its three flags by `getLsbD_errorFlags`; the invariant keeps
it 0 during a run, and the last INDEX step keeps it. -/
theorem errorFlagsChangeOnlyHere : Obligations.ErrorFlagsChangeOnlyHere := by
  intro s t hs
  refine ⟨fun hc => ?clears, fun hr hp hv => ?reports, fun hr hc he hv => ?keeps, fun hi hr hp ht => ?success⟩
  case clears =>
    cases step_status hs with
    | cleared _ _ _ he => exact he
    | failed stays | finished stays | kept stays => exact absurd hc stays
  case reports =>
    cases step_status hs with
    | cleared clears => simp [clears.idle hr] at hp
    | failed _ _ _ _ he => exact he ▸ getLsbD_errorFlags s
    | finished _ last => simp [last.1] at hp
    | kept _ passes => exact absurd ⟨hp, hv⟩ passes
  case keeps =>
    cases step_status hs with
    | cleared clears => exact absurd clears (by simp [ClearsStatus, hr, hc, he])
    | failed _ fails => exact absurd fails hv
    | finished _ _ _ _ herr => exact herr
    | kept _ _ _ same => exact same.2.2
  case success =>
    cases step_status hs with
    | cleared _ _ _ he => exact he
    | failed _ fails => simp [fails.1] at hp
    | finished _ _ _ _ herr => exact herr.trans (hi.runHidden (by simp [hp])).2.1
    | kept _ _ _ _ busy => exact absurd ht (busy (by simp [hp]))

end Sys2Proof.Machine
end

section
/-! PROOF. What a step does to `PHASE`, to `ILL` and to the entropy input (10_state.md R12 to R14, R17, R27). -/

namespace Sys2Proof.Machine

/-- Settles O19: the only step that leaves IDLE is an accepted command, and only `ENC` moves `PHASE`. -/
theorem onlyEncLeavesIdle : Obligations.OnlyEncLeavesIdle := by
  intro s t hs hp ht
  rcases step_kinds hs with ⟨_, rest, rfl⟩ | ⟨_, _, i, rest, d, ha, he⟩ | ⟨_, _, _, rest, d, rfl⟩ | ⟨_, _, _, h, he⟩
  · simp at ht
  · have hphase := exec_phase he
    by_cases hi : i = .enc
    · subst hi
      exact ⟨ha, by simpa using hphase⟩
    · exact absurd (by simpa [hi, hp] using hphase) ht
  · simp [hp] at ht
  · rw [engineStep_idle (by simpa using hp)] at he
    cases he
    exact absurd hp ht

/-- An outcome with its next state, if there is one, changed by `f`. -/
def mapNext (f : State → State) : Result → Result
  | .next t => .next (f t)
  | .fault r => .fault r
  | .refused r => .refused r

/-- The same state with another value of `ILL`. -/
def State.withIll (s : State) (b : Bool) : State := { s with ill := b }

theorem nextGroup_withIll (s : State) (b : Bool) : (s.withIll b).nextGroup = s.nextGroup.withIll b := by
  symm
  exact apply_ite (fun t : State => t.withIll b) (s.k.toNat + 1 = nw s.entLen) _ _

/-- The INDEX step: its outcome hangs on `LEN`, on `K` and on the cell looked up, none of them `ILL`. -/
theorem stepIndex_withIll (s : State) (b : Bool) :
    stepIndex (s.withIll b) = mapNext (fun t => t.withIll b) (stepIndex s) := by
  have hL : (s.withIll b).entLen = s.entLen := rfl
  have hK : (s.withIll b).k = s.k := rfl
  have hF : (s.withIll b).full = s.full := rfl
  have hW : (s.withIll b).wl = s.wl := rfl
  simp only [stepIndex, hL, hK, hF, hW]
  by_cases hl : inLenSet s.entLen = true
  · by_cases hk : s.k.toNat < nw s.entLen
    · rw [if_pos hl, if_pos hk, if_pos hl, if_pos hk]
      cases wordlistIndexer s.wl (bitPartitioner11 s.full s.k.toNat) with
      | none => rfl
      | some w => exact congrArg _ (nextGroup_withIll (s.storeResult _ _ w) b)
    · rw [if_pos hl, if_neg hk, if_pos hl, if_neg hk]; rfl
  · rw [if_neg hl, if_neg hl]; rfl

/-- Engine steps neither read nor write `ILL` (R27): the phases before INDEX make one choice each, by the error flags or
by `LEN`. -/
theorem engineStep_withIll (s : State) (b : Bool) :
    engineStep (s.withIll b) = mapNext (fun t => t.withIll b) (engineStep s) := by
  have hp : (s.withIll b).phase = s.phase := rfl
  simp only [engineStep, hp]
  cases s.phase with
  | idle => rfl
  | validate => symm; exact apply_ite (mapNext fun t => t.withIll b) (s.errorFlags = 0#3) _ _
  | pack | hash | csum | concat => symm; exact apply_ite (mapNext fun t => t.withIll b) (inLenSet s.entLen = true) _ _
  | index => exact stepIndex_withIll s b

/-- Settles O47: in each kind of step, and for the engine by `engineStep_withIll`. -/
theorem illegalFlagChangesOnlyHere : Obligations.IllegalFlagChangesOnlyHere := by
  refine ⟨fun s t hs => ⟨fun ha => ?sets, fun hc => ?clears, fun ha hr hc => ?keeps⟩, fun s b => ?engine⟩
  case sets =>
    rcases step_kinds hs with ⟨hr, _⟩ | ⟨_, _, i, _, _, hi, _⟩ | ⟨_, _, _, rest, d, rfl⟩ | ⟨_, _, hn, _⟩
    · exact absurd hr ha.not_resets
    · exact absurd ha hi.not_illegal
    · simp
    · exact absurd ha hn
  case clears =>
    rcases step_kinds hs with ⟨_, rest, rfl⟩ | ⟨hr, _, i, rest, d, ha, he⟩ | ⟨hr, _, ha, _⟩ | ⟨hr, hn, _⟩
    · simp
    · obtain rfl := ha.unique (hc.resolve_left hr)
      cases he
      simp
    · exact absurd ha (hc.resolve_left hr).not_illegal
    · exact absurd (hc.resolve_left hr) (hn _)
  case keeps =>
    rcases step_kinds hs with ⟨h, _⟩ | ⟨_, _, i, rest, d, hi, he⟩ | ⟨_, _, h, _⟩ | ⟨_, _, _, h, he⟩
    · exact absurd h hr
    · have hne : i ≠ .clr := by rintro rfl; exact hc hi
      simpa using exec_keeps_ill he hne
    · exact absurd h ha
    · obtain ⟨_, _, _, _, _, hill⟩ := engineStep_keeps_inputs he
      simpa using hill
  case engine =>
    have h := engineStep_withIll s b
    cases he : engineStep s <;> rw [he] at h <;> exact h

/-- Settles O48: the commands other than `CLR`, `PUSH` and `INV` keep the entropy input, and so do engine steps. -/
theorem entropyInputChangesOnlyHere : Obligations.EntropyInputChangesOnlyHere := by
  intro s t hs hr hc
  rcases step_kinds hs with ⟨h, _⟩ | ⟨_, _, i, rest, d, hi, he⟩ | ⟨_, _, _, rest, d, rfl⟩ | ⟨_, _, _, h, he⟩
  · exact absurd h hr
  · have hne : i ≠ .clr := by rintro rfl; exact hc hi
    refine ⟨fun hb => exec_keeps_badch_set he hne (by simpa using hb), fun hpush => ?_⟩
    obtain ⟨hlen, hbad, hcells⟩ := exec_keeps_entropy he hne (by rintro c rfl; exact hpush c hi)
    exact ⟨by simpa using hlen, by simpa using hbad, fun hinv => by simpa using hcells (by rintro rfl; exact hinv hi)⟩
  · simp
  · obtain ⟨hcells, hlen, hbad, _⟩ := engineStep_keeps_inputs he
    simp at hcells hlen hbad
    exact ⟨fun hb => hbad.trans hb, fun _ => ⟨hlen, hbad, fun _ => hcells⟩⟩

end Sys2Proof.Machine
end

section
/-! PROOF. The invariant of 10_state.md R35: it holds at reset, and every kind of step keeps it, by the lemmas of
Laws/Invariant.lean on the operations the step is made of. -/

namespace Sys2Proof.Machine

/-- Settles O53: at reset nothing is counted, shown or running. -/
theorem invariantAtReset : Obligations.InvariantAtReset where
  wlCanonical := Memory.wf_nil
  wlAppended := fun a ha => absurd ha (Nat.not_lt_zero a)
  entropyTail := fun i _ => BitArray.cell_zero 256 i
  wordCount := List.mem_cons_self
  resultFinished := fun h => absurd rfl h
  errorFinished := fun h => absurd rfl h
  runHidden := fun h => absurd rfl h
  groupInRange := Phase.noConfusion
  inputsValid := fun h => absurd rfl h.1

/-- An engine step keeps the invariant. -/
theorem inv_engineStep {s t : State} (hi : s.Inv) (h : engineStep s = .next t) : t.Inv := by
  rcases engineStep_cases h with ⟨_, rfl⟩ | ⟨hp, hf, rfl⟩ | ⟨hp, _, rfl⟩ | ⟨hp, _, rfl⟩ | ⟨hp, _, rfl⟩ | ⟨hp, _, rfl⟩ |
    ⟨hp, hl, rfl⟩ | ⟨hp, hl, hk, w, _, rfl⟩
  · exact hi
  · exact inv_enter hi hp hf
  · exact inv_raiseErrors hi hp _
  · exact inv_toPhase (inv_setMsg hi _) (by simp [hp, Phase.transforming]) _ (by simp)
  · exact inv_toPhase (inv_setDigest hi _) (by simp [hp, Phase.transforming]) _ (by simp)
  · exact inv_toPhase (inv_setChecksum hi _) (by simp [hp, Phase.transforming]) _ (by simp)
  · obtain ⟨hpos, hmax⟩ := nw_le hl
    refine inv_toPhase (inv_setFull hi (by simp [hp]) _) (by simp [hp, Phase.transforming]) _ fun _ => ⟨?_, hmax⟩
    exact Nat.lt_of_lt_of_le (by decide : 0 < 12) hpos
  · have hu := inv_storeResult hi s.k.toNat (bitPartitioner11 s.full s.k.toNat) w
    rcases nextGroup_cases (s.storeResult s.k.toNat (bitPartitioner11 s.full s.k.toNat) w) with ⟨_, e⟩ | ⟨hne, e⟩ <;>
      rw [e]
    · exact inv_publish hu hp hl
    · exact inv_advanceK hu hp hk hne

/-- Settles O54: a reset edge, an accepted command, an accepted illegal word and an engine step each keep the
invariant. -/
theorem invariantIsKept : Obligations.InvariantIsKept := by
  intro s t hi hs
  rcases step_kinds hs with ⟨_, rest, rfl⟩ | ⟨_, hp, i, rest, d, _, he⟩ | ⟨_, _, _, rest, d, rfl⟩ | ⟨_, _, _, h, he⟩
  · exact inv_resetEdge (inv_withHost hi rest)
  · exact inv_exec (s := s.present rest d) i hp (inv_sampleWdata (inv_withHost hi rest) d) he
  · exact inv_markIllegal (inv_sampleWdata (inv_withHost hi rest) d)
  · exact inv_engineStep (inv_withHost hi h) he

end Sys2Proof.Machine
end

section
/-! PROOF. The data invariant (10_state.md R19 to R24): what the registers of a run hold in the phase the run is in, and
what a visible result is. A step that starts no transforming phase keeps the first part trivially and the second
because it keeps or hides the result; each transforming phase computes its register from the one before. -/

namespace Sys2Proof.Machine

/-- A visible result is the mnemonic of some entropy of a permitted length: the clause `published` of `DataInv`. -/
def State.ShowsMnemonic (s : State) : Prop :=
  ∃ E : List Bool, inLenSet E.length = true ∧ s.nwords.toNat = nw E.length ∧ s.IndicesAre E s.nwords.toNat

/-- The clause of `DataInv` for the phase the run is in. -/
def State.RunData (s : State) : Prop :=
  match s.phase with
  | .idle | .validate | .pack => True
  | .hash => s.msg = entropyBitPacker s.ebuf s.entLen
  | .csum => s.digest = Sha256.sha256 (packBits s.entropyBits)
  | .concat => s.cs = checksumExtractor (Sha256.sha256 (packBits s.entropyBits)) (cslen s.entLen)
  | .index => (∀ i < flen s.entLen, s.full.cell i = (fullBits s.entropyBits).getD i false) ∧
      s.IndicesAre s.entropyBits s.k.toNat ∧
      ∀ k < s.k.toNat, s.wl.read (Regs.entry s.midx k 0#11).toNat = some (Regs.entry s.mword k 0)

/-- The data invariant is the clause of the phase together with the one on a visible result. -/
theorem dataInv_of_runData {s : State} (h : s.RunData) (hpub : s.nwords ≠ 0#5 → s.ShowsMnemonic) : s.DataInv := by
  unfold State.RunData at h
  constructor
  case published => exact hpub
  all_goals intro hp; rw [hp] at h
  case joined => exact h.1
  case produced => exact h.2.1
  case looked => exact h.2.2
  all_goals exact h

/-- Outside the transforming phases no register of a run holds anything. -/
theorem runData_of_not_transforming {s : State} (h : ¬s.phase.transforming) : s.RunData := by
  unfold State.RunData
  cases hp : s.phase with
  | idle | validate | pack => trivial
  | hash | csum | concat | index => exact absurd (by simp [hp, Phase.transforming]) h

theorem showsMnemonic_congr {s t : State} (hm : t.midx = s.midx) (hn : t.nwords = s.nwords) (h : s.ShowsMnemonic) :
    t.ShowsMnemonic := by
  obtain ⟨E, hE, hlen, hidx⟩ := h
  exact ⟨E, hE, hn ▸ hlen, hn ▸ (IndicesAre_congr hm E _).2 hidx⟩

/-- Settles O56: at reset no run is in progress and no result is visible. -/
theorem dataInvariantAtReset : Obligations.DataInvariantAtReset :=
  dataInv_of_runData (runData_of_not_transforming fun h => h.1 rfl) fun h => absurd rfl h

/-- A step into IDLE or VALIDATE that keeps the result buffer, and keeps the word count or clears it. -/
theorem dataInv_outside_run {s t : State} (hd : s.DataInv) (hp : ¬t.phase.transforming) (hm : t.midx = s.midx)
    (hn : t.nwords = s.nwords ∨ t.nwords = 0#5) : t.DataInv := by
  refine dataInv_of_runData (runData_of_not_transforming hp) fun hne => ?_
  have hn : t.nwords = s.nwords := hn.resolve_right hne
  exact showsMnemonic_congr hm hn (hd.published (hn ▸ hne))

/-- An accepted command keeps the data invariant. -/
theorem dataInv_exec {i : Instr} {s t : State} (hp : s.phase = .idle) (hd : s.DataInv) (he : exec i s = .next t) :
    t.DataInv := by
  have hphase : ¬t.phase.transforming := by
    rw [exec_phase he, hp]
    by_cases hi : i = .enc <;> simp [hi, Phase.transforming]
  refine dataInv_outside_run hd hphase (exec_keeps_midx he) ?_
  by_cases hi : i = .clr ∨ i = .enc
  · exact .inr (exec_clears_status he hi).1
  · rw [not_or] at hi
    exact .inl (exec_keeps_status he hi.1 hi.2).1

/-- `K` counts the group up while it is below its largest value. -/
theorem toNat_nextK {k : BitVec 5} (h : k.toNat + 1 < 32) : (k + 1#5).toNat = k.toNat + 1 := by
  rw [BitVec.toNat_add]
  exact Nat.mod_eq_of_lt h

/-- A permitted length is the length of the stored entropy. -/
theorem length_entropyBits_of_inLenSet {s : State} (hl : inLenSet s.entLen = true) :
    s.entropyBits.length = s.entLen := by
  rw [length_entropyBits, storedLen_of_inLenSet hl]

/-- An INDEX step adds the next index of the mnemonic to the result buffer (42_encode.md R82, R83). -/
theorem indicesAre_storeResult {s : State} (hd : s.DataInv) (hp : s.phase = .index) (hl : inLenSet s.entLen = true)
    (hk : s.k.toNat < nw s.entLen) (w : Word) :
    (s.storeResult s.k.toNat (bitPartitioner11 s.full s.k.toNat) w).IndicesAre s.entropyBits (s.k.toNat + 1) := by
  have hmax := (nw_le hl).2
  have hlen : s.entropyBits.length = s.entLen := length_entropyBits_of_inLenSet hl
  intro j hj
  rw [State.storeResult_midx, Regs.entry_setEntry]
  by_cases h : j = s.k.toNat
  · subst h
    rw [if_pos ⟨rfl, by omega⟩]
    exact toNat_group (by rw [hlen]; exact hl) (by rw [hlen]; exact hd.joined hp) (by rw [hlen]; exact hk)
  · rw [if_neg (fun hx => h hx.1)]
    exact hd.produced hp j (by omega)

/-- Its word is the one the wordlist has at that index (R83). -/
theorem looked_storeResult {s : State} (hd : s.DataInv) (hp : s.phase = .index) {a : Index} {w : Word}
    (hk : s.k.toNat < 24) (hw : s.wl.read a.toNat = some w) {j : Nat} (hj : j < s.k.toNat + 1) :
    s.wl.read (Regs.entry (s.storeResult s.k.toNat a w).midx j 0#11).toNat =
      some (Regs.entry (s.storeResult s.k.toNat a w).mword j 0) := by
  rw [State.storeResult_midx, State.storeResult_mword, Regs.entry_setEntry, Regs.entry_setEntry]
  by_cases h : j = s.k.toNat
  · simpa [h, hk] using hw
  · simpa [h] using hd.looked hp j (by omega)

/-- The engine step of each phase gives its register the value the next phase expects (R78 to R83). -/
theorem runData_engineStep {s t : State} (hd : s.DataInv) (h : engineStep s = .next t) : t.RunData := by
  obtain ⟨hcells, hlen, _, hwl, _⟩ := engineStep_keeps_inputs h
  have hbits : t.entropyBits = s.entropyBits := entropyBits_congr hcells hlen
  have hL : t.entLen = s.entLen := entLen_congr hlen
  unfold State.RunData
  rw [hbits, hL, hcells, hwl]
  rcases engineStep_cases h with ⟨hp, rfl⟩ | ⟨_, _, rfl⟩ | ⟨_, _, rfl⟩ | ⟨_, _, rfl⟩ | ⟨hp, hl, rfl⟩ | ⟨hp, _, rfl⟩ |
    ⟨hp, hl, rfl⟩ | ⟨hp, hl, hk, w, hw, rfl⟩
  · simp [hp]
  · simp
  · simp
  · simp
  · simp [hd.packed hp, hash_of_packed hl]
  · simp [hd.hashed hp]
  · exact ⟨fun i hi => by simpa [hd.summed hp] using cell_concatenated hl hi, fun k hk => absurd hk (Nat.not_lt_zero k),
      fun k hk => absurd hk (Nat.not_lt_zero k)⟩
  · have hmax := (nw_le hl).2
    rcases nextGroup_cases (s.storeResult s.k.toNat (bitPartitioner11 s.full s.k.toNat) w) with ⟨_, e⟩ | ⟨_, e⟩ <;>
      rw [e]
    · simp
    · simp only [State.advanceK_phase, State.storeResult_phase, hp, State.advanceK_full, State.storeResult_full,
        State.advanceK_k, State.storeResult_k, State.advanceK_midx, State.advanceK_mword,
        toNat_nextK (show s.k.toNat + 1 < 32 by omega)]
      exact ⟨hd.joined hp, (IndicesAre_congr (State.advanceK_midx _) _ _).2 (indicesAre_storeResult hd hp hl hk w),
        fun j hj => looked_storeResult hd hp (by omega) hw hj⟩

/-- A result that an engine step leaves visible is a mnemonic: the one shown before, or the one just published (R84). -/
theorem showsMnemonic_engineStep {s t : State} (hi : s.Inv) (hd : s.DataInv) (h : engineStep s = .next t)
    (hn : t.nwords ≠ 0#5) : t.ShowsMnemonic := by
  rcases engineStep_status h with ⟨⟨hp, _⟩, rfl⟩ | ⟨⟨hp, hlast⟩, hl, w, rfl⟩ | ⟨_, _, ⟨hsame, _⟩, _⟩
  · exact absurd (hi.runHidden (by simp [hp])).2.2 hn
  · have hlen : s.entropyBits.length = s.entLen := length_entropyBits_of_inLenSet hl
    have hcount : (BitVec.ofNat 5 (nw s.entLen)).toNat = nw s.entLen := toNat_ofNat_nw hl
    refine ⟨s.entropyBits, by rw [hlen]; exact hl, by rw [State.publish_nwords, hcount, hlen], ?_⟩
    rw [State.publish_nwords, hcount, ← hlast, IndicesAre_congr (State.publish_midx _ _)]
    exact indicesAre_storeResult hd hp hl (by omega) w
  · by_cases hp : s.phase = .idle
    · rw [engineStep_idle hp] at h
      cases h
      exact hd.published hn
    · exact absurd (hi.runHidden hp).2.2 (hsame ▸ hn)

/-- The coming moves and the sampled operand are no part of the data invariant. -/
theorem dataInv_withHost {s : State} (h : s.DataInv) (x : List HostMove) : (s.withHost x).DataInv := by
  obtain ⟨h1, h2, h3, h4, h5, h6, h7⟩ := h
  exact ⟨h1, h2, h3, h4, h5, h6, h7⟩

theorem dataInv_sampleWdata {s : State} (h : s.DataInv) (x : Word) : (s.sampleWdata x).DataInv := by
  obtain ⟨h1, h2, h3, h4, h5, h6, h7⟩ := h
  exact ⟨h1, h2, h3, h4, h5, h6, h7⟩

/-- Settles O57: after a reset edge nothing is visible, commands and illegal words leave the result buffer alone, and an
engine step is the case of `runData_engineStep` and `showsMnemonic_engineStep`. -/
theorem dataInvariantIsKept : Obligations.DataInvariantIsKept := by
  intro s t hi hd hs
  refine ⟨invariantIsKept s t hi hs, ?_⟩
  rcases step_kinds hs with ⟨_, rest, rfl⟩ | ⟨_, hp, i, rest, d, _, he⟩ | ⟨_, hp, _, rest, d, rfl⟩ | ⟨_, _, _, h, he⟩
  · exact dataInv_of_runData (runData_of_not_transforming fun h => h.1 rfl) fun h => absurd rfl h
  · exact dataInv_exec (s := s.present rest d) hp (dataInv_sampleWdata (dataInv_withHost hd rest) d) he
  · exact dataInv_outside_run hd (fun h => h.1 hp) rfl (.inl rfl)
  · have hi' := inv_withHost hi h
    have hd' := dataInv_withHost hd h
    exact dataInv_of_runData (runData_engineStep hd' he) (showsMnemonic_engineStep hi' hd' he)

end Sys2Proof.Machine
end

section
/-! PROOF. Loading the wordlist: one `WLAPP`, then a list of them by induction (41_wordlist.md R70, R71). -/

namespace Sys2Proof.Machine

/-- Appending a list is appending its first entry and then the others. -/
theorem appendAll_cons (w : Word) (ws : List Word) (s : State) :
    appendAll (w :: ws) s = appendAll ws ((s.sampleWdata w).storeEntry s.appendCell w).countEntry := rfl

/-- The wordlist after one `WLAPP` (R71): the cell `WLCNT` written if it is a cell of `WL`, every other one kept. -/
theorem read_append (s : State) (w : Word) (a : Nat) :
    (((s.sampleWdata w).storeEntry s.appendCell w).countEntry).wl.read a =
      if a = s.wlcnt.toNat ∧ a < 2048 then some w else s.wl.read a := by
  rw [State.countEntry_wl]
  cases hc : s.appendCell with
  | none =>
    rw [appendCell_eq_none] at hc
    rw [if_neg (by omega), State.storeEntry_none_wl, State.sampleWdata_wl]
  | some c =>
    rw [appendCell_eq_some] at hc
    obtain ⟨rfl, hlt⟩ := hc
    rw [State.storeEntry_some_wl, Memory.read_write, State.sampleWdata_wl]
    by_cases ha : a = s.wlcnt.toNat
    · rw [if_pos ha, if_pos ⟨ha, ha ▸ hlt⟩]
    · rw [if_neg ha, if_neg (fun h => ha h.1)]

/-- The wordlist after one `WLAPP` per entry of a list, from any count on: the entries stand in the cells from there on,
as far as there are cells, and the count saturates. -/
theorem appendAll_spec (ws : List Word) (s : State) : ∃ t, appendAll ws s = .next t ∧
    t.wlcnt.toNat = min (s.wlcnt.toNat + ws.length) 4095 ∧
    ∀ a, t.wl.read a =
      if s.wlcnt.toNat ≤ a ∧ a < min (s.wlcnt.toNat + ws.length) 2048 then ws[a - s.wlcnt.toNat]? else s.wl.read a := by
  induction ws generalizing s with
  | nil =>
    have := s.wlcnt.isLt
    refine ⟨s, rfl, by simp; omega, fun a => (if_neg ?_).symm⟩
    simp only [List.length_nil]; omega
  | cons w ws ih =>
    obtain ⟨t, ht, hcount, hread⟩ := ih ((s.sampleWdata w).storeEntry s.appendCell w).countEntry
    have hc : ((s.sampleWdata w).storeEntry s.appendCell w).countEntry.wlcnt.toNat = min (s.wlcnt.toNat + 1) 4095 := by
      simp
    rw [hc] at hcount hread
    refine ⟨t, appendAll_cons w ws s ▸ ht, by rw [hcount, List.length_cons]; omega, fun a => ?_⟩
    rw [hread, read_append, List.length_cons]
    by_cases hfirst : a = s.wlcnt.toNat
    · subst hfirst
      rw [if_neg (by omega), Nat.sub_self, List.getElem?_cons_zero]
      by_cases hroom : s.wlcnt.toNat < 2048
      · rw [if_pos ⟨rfl, hroom⟩, if_pos (by omega)]
      · rw [if_neg (by omega), if_neg (by omega)]
    · rw [if_neg (c := a = _ ∧ _) (fun h => hfirst h.1)]
      by_cases hlater : s.wlcnt.toNat + 1 ≤ a ∧ a < min (s.wlcnt.toNat + 1 + ws.length) 2048
      · have hindex : a - s.wlcnt.toNat = a - min (s.wlcnt.toNat + 1) 4095 + 1 := by omega
        rw [if_pos (by omega), if_pos (by omega), hindex, List.getElem?_cons_succ]
      · rw [if_neg (by omega), if_neg (by omega)]

/-- Settles O9: `appendAll_spec` from the count 0 that `WLCLR` leaves. -/
theorem appendedEntriesAreHeld : Obligations.AppendedEntriesAreHeld := by
  intro s u ws hu
  cases hu
  obtain ⟨t, ht, hcount, hread⟩ := appendAll_spec ws s.forgetEntries
  have h0 : s.forgetEntries.wlcnt.toNat = 0 := by simp
  simp only [h0, Nat.zero_add, Nat.zero_le, true_and, Nat.sub_zero, State.forgetEntries_wl] at hcount hread
  exact ⟨t, ht, hcount, fun a ha => by rw [hread, if_pos ha], fun a ha => by rw [hread, if_neg (Nat.not_lt.2 ha)]⟩

end Sys2Proof.Machine
end

section
/-! PROOF. The output ports (10_state.md R31 to R33) and a reset edge (R36, 70_reset_and_hazards.md R126, R127). -/

namespace Sys2Proof.Machine

/-- `errcode` names the lowest set error flag (R31). -/
theorem errorCode_eq (e : BitVec 3) :
    (e = 0#3 → errorCode e = 0#2) ∧ (e.getLsbD 0 = true → errorCode e = 1#2) ∧
    (e.getLsbD 0 = false → e.getLsbD 1 = true → errorCode e = 2#2) ∧
    (e.getLsbD 0 = false → e.getLsbD 1 = false → e.getLsbD 2 = true → errorCode e = 3#2) := by
  revert e
  decide

/-- Settles O41: each port is a register or a test of one, and `errcode` is `errorCode_eq`. -/
theorem statusPorts : Obligations.StatusPorts := fun s =>
  ⟨decide_eq_true_iff, decide_eq_true_iff, rfl, rfl, rfl, rfl, rfl, rfl, rfl, errorCode_eq s.err⟩

/-- Settles O42: the port reads the cell, and clause (a) of R35 is about the cells above. -/
theorem entropyReadPort : Obligations.EntropyReadPort := fun _ sel =>
  ⟨rfl, fun hi hsel => hi.entropyTail sel.toNat hsel⟩

theorem resValid_eq_true (s : State) (sel : BitVec 5) : s.resValid sel = true ↔ sel.toNat < s.nwords.toNat :=
  decide_eq_true_iff

/-- What the result port shows of an entry that is not valid (R33). -/
theorem result_not_valid {s : State} {sel : BitVec 5} (h : s.nwords.toNat ≤ sel.toNat) :
    s.resValid sel = false ∧ s.resIdx sel = 0#11 ∧ s.resWord sel = 0 := by
  have hv : s.resValid sel = false := decide_eq_false (Nat.not_lt.2 h)
  simp [State.resIdx, State.resWord, hv]

/-- No result is longer than the result buffer: clause (b) of R35. -/
theorem nwords_le {s : State} (hi : s.Inv) : s.nwords.toNat ≤ 24 := by
  have h := hi.wordCount
  simp only [List.mem_cons, List.not_mem_nil, or_false] at h
  omega

/-- Settles O43: entries below `NWORDS` are read from the buffer, the others are not valid, as all from 24 on are. -/
theorem resultReadPort : Obligations.ResultReadPort := by
  intro s sel
  refine ⟨fun hlt => ?valid, fun hge => ?above, fun hi hsel => ?outside⟩
  case valid =>
    have hv := (resValid_eq_true s sel).2 hlt
    exact ⟨hv, fun h => by simp [State.resIdx, State.resWord, hv, Regs.entry, h]⟩
  case above => exact result_not_valid hge
  case outside => exact (result_not_valid ((nwords_le hi).trans hsel)).1

/-- The ports after reset follow from the values of the registers R36 names. -/
theorem afterReset_of_registers {s : State} (hphase : s.phase = .idle) (hlen : s.len = 0#9) (hbad : s.badch = false)
    (hcells : s.ebuf = 0#256) (hcount : s.wlcnt = 0#12) (hwords : s.nwords = 0#5) (hdone : s.done = false)
    (herr : s.err = 0#3) (hill : s.ill = false) : s.AfterReset := by
  obtain ⟨hready, hbusy, hports⟩ := statusPorts s
  obtain ⟨-, -, -, -, -, -, -, hcode, -⟩ := hports
  have hcell (i : Nat) : s.ebuf.cell i = false := hcells ▸ BitArray.cell_zero 256 i
  exact ⟨⟨hphase, hlen, hbad, fun i _ => hcell i, hcount, hwords, hdone, herr, hill⟩,
    hready.2 hphase, Bool.eq_false_iff.2 fun h => hbusy.1 h hphase, hdone, herr, hcode herr, hill, hlen, hbad, hcount,
    hwords, fun sel => hcell sel.toNat, fun sel => result_not_valid (hwords ▸ Nat.zero_le _)⟩

/-- Settles O51: the registers R36 names are 0 in the reset state. -/
theorem resetStateIsAsSpecified : Obligations.ResetStateIsAsSpecified :=
  afterReset_of_registers rfl rfl rfl rfl rfl rfl rfl rfl rfl

/-- Settles O52: the step of a reset move is `resetEdge` on the moves still to come, whatever the phase. -/
theorem resetEdgeFromAnyState : Obligations.ResetEdgeFromAnyState := fun _ _ hh =>
  ⟨_, step_reset hh, afterReset_of_registers rfl rfl rfl rfl rfl rfl rfl rfl rfl, State.resetEdge_host _⟩

end Sys2Proof.Machine
end

section
/-! PROOF. Decoding and encoding (30_encoding.md R56 to R61). Every row of the opcode table selects the words of the
instruction it builds (`encode_build`); with the decoder as a left inverse of the encoder this gives the round trip and
the disjointness of the rows. -/

namespace Sys2Proof

/-- The word of `PUSH`, its opcode and zero field as one byte (R59). -/
theorem encode_push (imm8 : Byte) : encode (.push imm8) = 0x20#8 ++ imm8 := rfl

theorem low_append (a b : Byte) : CmdWord.low (a ++ b) = b := by
  rw [CmdWord.low, BitVec.extractLsb'_append_eq_right]

/-- The word of `PUSH` is read as `PUSH`, whatever its immediate (R57). -/
theorem decode_push (imm8 : Byte) : decode (0x20#8 ++ imm8) = .ok (.push imm8) := by
  have hval := toNat_append_byte 0x20#8 imm8
  have hnop : 0x20#8 ++ imm8 ≠ 0x0000#16 := fun h => by simp [h] at hval; omega
  have hclr : 0x20#8 ++ imm8 ≠ 0x1000#16 := fun h => by simp [h] at hval; omega
  rw [decode_eq, if_neg hnop, if_neg hclr, low_append, if_pos rfl]

/-- The decoder is a left inverse of the encoder. -/
theorem decode_encode (i : Instr) : decode (encode i) = .ok i := by
  cases i with
  | push imm8 => exact decode_push imm8
  | nop | clr | enc | inv | wlclr | wlapp => decide

theorem encode_injective {i j : Instr} (h : encode i = encode j) : i = j := by
  have hd := decode_encode i
  rw [h, decode_encode] at hd
  exact (Except.ok.inj hd).symm

/-- A row of the table selects only the words of the instruction it builds (R59). -/
theorem encode_build {r : OpcodeRow} (hr : r ∈ opcodeTable) {c : CmdWord} (hs : r.selects c = true) :
    encode (r.build c.low) = c := by
  simp only [opcodeTable, List.mem_cons, List.not_mem_nil, or_false] at hr
  rcases hr with rfl | rfl | rfl | rfl | rfl | rfl | rfl <;>
    simp only [OpcodeRow.selects, beq_iff_eq, and_full, push_selects] at hs
  case inr.inr.inl => exact (encode_push c.low).trans hs.symm
  all_goals exact hs.symm

/-- The decoder reads an instruction only from that instruction's word. -/
theorem encode_of_decode {c : CmdWord} {i : Instr} (h : decode c = .ok i) : encode i = c := by
  unfold decode at h
  cases hf : opcodeTable.find? (fun r => r.selects c) with
  | none => rw [hf] at h; cases h
  | some r =>
    rw [hf] at h
    cases h
    exact encode_build (List.mem_of_find?_eq_some hf) (List.find?_some (p := fun r : OpcodeRow => r.selects c) hf)

/-- Settles O11: the decoder is a left inverse of the encoder, and the row it finds selects only the words of the
instruction it builds. -/
theorem decodeEncodeRoundTrip : Obligations.DecodeEncodeRoundTrip :=
  ⟨fun i _ => decode_encode i, fun _ _ => encode_of_decode⟩

/-- Two rows of the table build different instructions, whatever the low byte. -/
theorem opcodeTable_builds_differ : opcodeTable.Pairwise (fun r r' => ∀ b : Byte, r.build b ≠ r'.build b) := by
  simp [opcodeTable]

/-- Settles O12: two rows that select one word would build instructions with the same word. -/
theorem noWordSelectsTwoRows : Obligations.NoWordSelectsTwoRows :=
  opcodeTable_builds_differ.imp_of_mem fun hr hr' hne c ⟨hs, hs'⟩ =>
    hne c.low (encode_injective ((encode_build hr hs).trans (encode_build hr' hs').symm))

/-- A word is its three fields side by side (R56). -/
theorem append_fields (c : CmdWord) : c.opcode ++ c.zeroField ++ c.low = c := by
  have hfields : c.opcode ++ c.zeroField = c.extractLsb' 8 8 := BitVec.extractLsb'_append_extractLsb'_eq_extractLsb' rfl
  rw [hfields]
  exact (BitVec.extractLsb'_append_extractLsb'_eq_extractLsb' rfl).trans BitVec.extractLsb'_eq_self

/-- The word of every instruction is legal. -/
theorem wellFormed_encode (i : Instr) : (encode i).wellFormed = true := by
  cases i with
  | nop => exact (Laws.WordShape.nop rfl).1
  | clr => exact (Laws.WordShape.clr rfl).1
  | push imm8 => exact (Laws.WordShape.push imm8 rfl).1
  | enc => exact (Laws.WordShape.enc rfl).1
  | inv => exact (Laws.WordShape.inv rfl).1
  | wlclr => exact (Laws.WordShape.wlclr rfl).1
  | wlapp => exact (Laws.WordShape.wlapp rfl).1

/-- Every legal combination of fields is the word of an instruction. -/
theorem exists_encode_eq_fields (o : BitVec 4) (b : Byte) (ho : o.toNat < 7) (hb : o = 0x2#4 ∨ b = 0#8) :
    ∃ i, encode i = o ++ 0x0#4 ++ b := by
  have hcases : o = 0#4 ∨ o = 1#4 ∨ o = 2#4 ∨ o = 3#4 ∨ o = 4#4 ∨ o = 5#4 ∨ o = 6#4 := by
    clear hb; revert o; decide
  rcases hcases with rfl | rfl | rfl | rfl | rfl | rfl | rfl
  case inr.inr.inl => exact ⟨.push b, rfl⟩
  all_goals obtain rfl := hb.resolve_left (by decide)
  · exact ⟨.nop, rfl⟩
  · exact ⟨.clr, rfl⟩
  · exact ⟨.enc, rfl⟩
  · exact ⟨.inv, rfl⟩
  · exact ⟨.wlclr, rfl⟩
  · exact ⟨.wlapp, rfl⟩

/-- The three checks on a word (R61), as statements about its fields. -/
theorem wellFormed_iff (c : CmdWord) : c.wellFormed = true ↔
    c.opcode.toNat < 7 ∧ c.zeroField = 0#4 ∧ (c.opcode = 0x2#4 ∨ c.low = 0#8) := by
  simp [CmdWord.wellFormed, CmdWord.opcodeAssigned, CmdWord.zeroFieldClear, CmdWord.lowFieldFits, and_assoc]

/-- The legal words are the words of the instructions. -/
theorem wellFormed_iff_exists_encode (c : CmdWord) : c.wellFormed = true ↔ ∃ i, encode i = c := by
  constructor
  · intro h
    obtain ⟨ho, hz, hb⟩ := (wellFormed_iff c).1 h
    obtain ⟨i, hi⟩ := exists_encode_eq_fields c.opcode c.low ho hb
    exact ⟨i, by rw [hi, ← hz, append_fields]⟩
  · rintro ⟨i, rfl⟩
    exact wellFormed_encode i

/-- The decoder rejects exactly the words that fail a check (R60, R61). -/
theorem decode_error_iff (c : CmdWord) : (∃ e, decode c = .error e) ↔ c.wellFormed = false := by
  rw [← Bool.not_eq_true, wellFormed_iff_exists_encode]
  constructor
  · rintro ⟨e, he⟩ ⟨i, rfl⟩
    rw [decode_encode] at he
    cases he
  · intro hn
    cases hd : decode c with
    | ok i => exact absurd ⟨i, encode_of_decode hd⟩ hn
    | error e => exact ⟨e, rfl⟩

/-- An opcode that is assigned and not that of `PUSH` is one of the six without an immediate (R61). -/
theorem opcode_without_immediate (o : BitVec 4) : o.toNat ∈ [0, 1, 3, 4, 5, 6] ↔ o.toNat < 7 ∧ o ≠ 0x2#4 := by
  revert o; decide

/-- The ill-formed words by kind. -/
theorem wellFormed_eq_false_iff (c : CmdWord) : c.wellFormed = false ↔
    7 ≤ c.opcode.toNat ∨ c.zeroField ≠ 0#4 ∨ (c.opcode.toNat ∈ [0, 1, 3, 4, 5, 6] ∧ c.low ≠ 0#8) := by
  rw [← Bool.not_eq_true, wellFormed_iff, opcode_without_immediate, ← Nat.not_lt]
  tauto

/-- Settles O13: the decoder rejects the ill-formed words, and these are of the three kinds. -/
theorem illegalWordsAreTheseThreeKinds : Obligations.IllegalWordsAreTheseThreeKinds := fun c =>
  ⟨(decode_error_iff c).trans (wellFormed_eq_false_iff c), decode_error_iff c⟩

/-- Settles O14: the ten legal samples are words of the encoder; the three illegal ones are evaluated. -/
theorem sampleWordsDecode : Obligations.SampleWordsDecode :=
  ⟨decode_encode .nop, decode_encode .clr, decode_encode (.push 0x30#8), decode_encode (.push 0x31#8),
    decode_encode (.push 0x00#8), decode_encode (.push 0xFF#8), decode_encode .enc, decode_encode .inv,
    decode_encode .wlclr, decode_encode .wlapp, by decide, by decide, by decide⟩

end Sys2Proof
end

section
/-! PROOF. The command port (30_encoding.md R55, R61, 70_reset_and_hazards.md R129): what an idle block does with a presented
word, and that a busy one looks neither at the moves nor at `wdata`. -/

namespace Sys2Proof.Machine

/-- An idle block accepts the word presented, in whichever way it is presented (R55). -/
theorem step_presented {s : State} {c : CmdWord} {d : Word} {rest : List HostMove} (hp : s.phase = .idle)
    (hh : s.host = .hold c d :: rest ∨ s.host = .once c d :: rest) : step s = accept c (s.present rest d) := by
  rcases hh with hh | hh
  · rw [step_hold hh, if_pos hp]
  · rw [step_once hh, if_pos hp]

theorem accept_ok {c : CmdWord} {i : Instr} (h : decode c = .ok i) (s : State) : accept c s = exec i s := by
  rw [accept, h]

theorem accept_error {c : CmdWord} {e : DecodeError} (h : decode c = .error e) (s : State) :
    accept c s = .next s.markIllegal := by
  rw [accept, h]

/-- Settles O15: the block accepts the word, and a legal word is its command. -/
theorem stepRunsTheDecodedCommand : Obligations.StepRunsTheDecodedCommand := fun s _ d rest _ hp hh hd =>
  (step_presented hp hh).trans (accept_ok hd (s.present rest d))

/-- Settles O16: the block accepts the word, and an illegal word only sets `ILL`. -/
theorem illegalWordOnlySetsIll : Obligations.IllegalWordOnlySetsIll := fun s _ d rest _ hp hh hd =>
  (step_presented hp hh).trans (accept_error hd (s.present rest d))

/-- The end of an INDEX step neither reads nor writes the port data. -/
theorem nextGroup_present (s : State) (h : List HostMove) (d : Word) :
    (s.present h d).nextGroup = s.nextGroup.present h d := by
  symm
  exact apply_ite (fun t : State => t.present h d) (s.k.toNat + 1 = nw s.entLen) _ _

/-- The INDEX step makes three choices, by `LEN`, by `K` and by the cell looked up: none by the port data. -/
theorem stepIndex_present (s : State) (h : List HostMove) (d : Word) :
    stepIndex (s.present h d) = mapNext (fun t => t.present h d) (stepIndex s) := by
  unfold stepIndex
  rw [apply_ite (mapNext _), apply_ite (mapNext _)]
  refine if_congr Iff.rfl (if_congr Iff.rfl ?lookup rfl) rfl
  have hcell : wordlistIndexer (s.present h d).wl (bitPartitioner11 (s.present h d).full (s.present h d).k.toNat) =
      wordlistIndexer s.wl (bitPartitioner11 s.full s.k.toNat) := rfl
  rw [hcell]
  cases wordlistIndexer s.wl (bitPartitioner11 s.full s.k.toNat) with
  | none => rfl
  | some w => exact congrArg _ (nextGroup_present (s.storeResult _ _ w) h d)

/-- Engine steps neither read nor write the port data (R129): each phase chooses its outcome by other registers. -/
theorem engineStep_present (s : State) (h : List HostMove) (d : Word) :
    engineStep (s.present h d) = mapNext (fun t => t.present h d) (engineStep s) := by
  have hp : (s.present h d).phase = s.phase := rfl
  simp only [engineStep, hp]
  cases s.phase with
  | idle => rfl
  | validate => symm; exact apply_ite (mapNext fun t => t.present h d) (s.errorFlags = 0#3) _ _
  | pack | hash | csum | concat =>
    symm; exact apply_ite (mapNext fun t => t.present h d) (inLenSet s.entLen = true) _ _
  | index => exact stepIndex_present s h d

/-- Settles O17: a busy block takes an engine step, and that is `engineStep_present`. -/
theorem commandsAreHeldOffDuringARun : Obligations.CommandsAreHeldOffDuringARun := by
  refine ⟨fun s c d rest hp => ⟨fun hh => ?held, fun hh => ?gone⟩, fun s h d => ?engine⟩
  case held => rw [step_hold hh, if_neg hp]
  case gone => rw [step_once hh, if_neg hp]; rfl
  case engine =>
    have heq := engineStep_present s h d
    cases he : engineStep s <;> rw [he] at heq <;> exact heq

end Sys2Proof.Machine
end

section
/-! PROOF. The entropy input commands (40_entropy_input.md R66 to R69): `NOP`, `CLR`, one `PUSH`, and by induction a string
of them. -/

namespace Sys2Proof.Machine

/-- Settles O1: the word 0x0000 is the one of `NOP`, and a busy block looks at no word. -/
theorem nopChangesNothing : Obligations.NopChangesNothing :=
  ⟨decode_encode .nop, exec_nop, fun _ _ _ hh hp => ⟨decide_eq_false hp, by rw [step_hold hh, if_neg hp]⟩⟩

/-- Settles O2: `CLR` is three named updates; what each leaves in a field is the field's lemma. -/
theorem clrClearsEntropyAndStatus : Obligations.ClrClearsEntropyAndStatus := by
  refine ⟨decode_encode .clr, fun s => ⟨_, exec_clr s, ?len, ?badch, fun i _ => ?cells, ?done, ?err, ?ill, ?nwords,
    ?frame⟩⟩
  case frame => simp [SameWordlist, SameDatapath, SameResult, SameOutside]
  all_goals simp

/-! ## One character -/

/-- `BADCH` after a symbol, by the symbol's code (R68). -/
theorem badchAfter_eq (b : Bool) (c : Byte) : badchAfter b c = if c = 0x30#8 ∨ c = 0x31#8 then b else true := by
  by_cases h : c = 0x30#8 ∨ c = 0x31#8
  · simp [badchAfter, (symbolValid_iff c).2 h, h]
  · simp [badchAfter, Bool.eq_false_iff.2 (mt (symbolValid_iff c).1 h), h]

/-- The bit of a symbol, by the symbol's code (R68). -/
theorem symbolBit_eq (c : Byte) : symbolBit c = if c = 0x30#8 ∨ c = 0x31#8 then c.getLsbD 0 else false :=
  if_congr (symbolValid_iff c) rfl rfl

/-- Only the character '1' gives the bit 1 (R68, R69). -/
theorem symbolBit_eq_decide (c : Byte) : symbolBit c = decide (c = 0x31#8) := by
  rw [symbolBit_eq]
  split
  case isTrue h => rcases h with rfl | rfl <;> decide
  case isFalse h => exact (decide_eq_false fun h1 => h (.inr h1)).symm

/-- The entropy buffer after one `PUSH` (R68): the cell `LEN` written if it is a cell of `EBUF`, every other one kept. -/
theorem cell_push (s : State) (b : Bool) (c : Byte) (i : Nat) :
    ((s.storeBit s.pushCell b).countSymbol c).ebuf.cell i =
      if i = s.len.toNat ∧ i < 256 then b else s.ebuf.cell i := by
  rw [State.countSymbol_ebuf]
  cases hc : s.pushCell with
  | none =>
    rw [pushCell_eq_none] at hc
    rw [if_neg (by omega), State.storeBit_none_ebuf]
  | some k =>
    obtain ⟨rfl, _⟩ := (pushCell_eq_some s k).1 hc
    rw [State.storeBit_some_ebuf, BitArray.cell_setCell]

/-- Settles O3: the cells by `cell_push`, `BADCH` by `badchAfter_eq`, the frame by the lemmas of the two updates. -/
theorem pushAppendsOneSymbol : Obligations.PushAppendsOneSymbol := by
  intro c s
  refine ⟨decode_push c, _, exec_push c s, pushCell_eq_some s, fun i hi => ?stored, fun i hi => ?kept, ?badch, ?len,
    ?frame⟩
  case stored =>
    obtain ⟨rfl, hlt⟩ := (pushCell_eq_some s i).1 hi
    rw [cell_push, if_pos ⟨rfl, hlt⟩, symbolBit_eq]
  case kept =>
    rw [cell_push, if_neg]
    rintro ⟨rfl, hlt⟩
    exact hi ((pushCell_eq_some s _).2 ⟨rfl, hlt⟩)
  case badch => rw [State.countSymbol_badch, State.storeBit_badch, badchAfter_eq]
  case len => simp
  case frame => simp [SameWordlist, SameDatapath, SameResult, SameStatus, SameOutside]

/-! ## A string of characters -/

/-- Commands one after the other: the first one, if it answers, and then the others (30_encoding.md R49). -/
theorem execAll_cons {i : Instr} {s t : State} (h : exec i s = .next t) (is : List Instr) :
    execAll (i :: is) s = execAll is t := by
  rw [execAll, h]

/-- The entropy input after one `PUSH` per character of a string, from any length on: the bits stand in the cells from
there on, as far as there are cells, the length saturates, and an invalid character anywhere in the string is remembered. -/
theorem execAll_push_spec (cs : List Byte) (s : State) : ∃ t, execAll (cs.map .push) s = .next t ∧
    t.len.toNat = min (s.len.toNat + cs.length) 511 ∧
    (t.badch = true ↔ s.badch = true ∨ ∃ c ∈ cs, c ≠ 0x30#8 ∧ c ≠ 0x31#8) ∧
    ∀ i, t.ebuf.cell i =
      if s.len.toNat ≤ i ∧ i < min (s.len.toNat + cs.length) 256 then decide (cs[i - s.len.toNat]? = some 0x31#8)
      else s.ebuf.cell i := by
  induction cs generalizing s with
  | nil =>
    have := s.len.isLt
    refine ⟨s, rfl, by simp; omega, by simp, fun i => (if_neg ?_).symm⟩
    simp only [List.length_nil]; omega
  | cons c cs ih =>
    obtain ⟨t, ht, hlen, hbad, hcell⟩ := ih ((s.storeBit s.pushCell (symbolBit c)).countSymbol c)
    have hl : ((s.storeBit s.pushCell (symbolBit c)).countSymbol c).len.toNat = min (s.len.toNat + 1) 511 := by simp
    rw [hl] at hlen hcell
    refine ⟨t, (execAll_cons (exec_push c s) _).trans ht, by rw [hlen, List.length_cons]; omega, ?badch, fun i => ?cells⟩
    case badch =>
      rw [hbad, State.countSymbol_badch, State.storeBit_badch, badchAfter_eq, List.exists_mem_cons_iff, ← or_assoc]
      by_cases hv : c = 0x30#8 ∨ c = 0x31#8 <;> simp [hv, ← not_or]
    case cells =>
      rw [hcell, cell_push, symbolBit_eq_decide, List.length_cons]
      by_cases hfirst : i = s.len.toNat
      · subst hfirst
        rw [if_neg (by omega), Nat.sub_self, List.getElem?_cons_zero]
        by_cases hroom : s.len.toNat < 256
        · rw [if_pos ⟨rfl, hroom⟩, if_pos (by omega)]; simp
        · rw [if_neg (by omega), if_neg (by omega)]
      · rw [if_neg (c := i = _ ∧ _) (fun h => hfirst h.1)]
        by_cases hlater : s.len.toNat + 1 ≤ i ∧ i < min (s.len.toNat + 1 + cs.length) 256
        · have hindex : i - s.len.toNat = i - min (s.len.toNat + 1) 511 + 1 := by omega
          rw [if_pos (by omega), if_pos (by omega), hindex, List.getElem?_cons_succ]
        · rw [if_neg (by omega), if_neg (by omega)]

/-- A string of valid characters whose bits are the cells of `EBUF` below `LEN` is read back from them. -/
theorem map_entropyBits_eq {t : State} {cs : List Byte} (hlen : t.storedLen = cs.length)
    (hvalid : ∀ c ∈ cs, c = 0x30#8 ∨ c = 0x31#8)
    (hcell : ∀ i < cs.length, t.ebuf.cell i = decide (cs[i]? = some 0x31#8)) :
    t.entropyBits.map (fun b => if b then 0x31#8 else 0x30#8) = cs := by
  apply List.ext_getElem
  · rw [List.length_map, length_entropyBits, hlen]
  · intro i hi' hi
    rw [List.length_map] at hi'
    have hbit : t.entropyBits[i] = decide (cs[i] = 0x31#8) := by
      simp [State.entropyBits, hcell i hi, List.getElem?_eq_getElem hi]
    rw [List.getElem_map, hbit]
    rcases hvalid cs[i] (List.getElem_mem hi) with h | h <;> simp [h]

/-- Settles O8: `execAll_push_spec` from the empty buffer that `CLR` leaves. -/
theorem deliveredStringIsHeld : Obligations.DeliveredStringIsHeld := by
  intro s cs
  obtain ⟨t, ht, hlen, hbad, hcell⟩ := execAll_push_spec cs s.clearEntropy.clearStatus.clearIllegal
  have hl0 : s.clearEntropy.clearStatus.clearIllegal.len.toNat = 0 := by simp
  have hb0 : s.clearEntropy.clearStatus.clearIllegal.badch = false := by simp
  have hc0 (i : Nat) : s.clearEntropy.clearStatus.clearIllegal.ebuf.cell i = false := by simp
  simp only [hl0, Nat.zero_add, Nat.zero_le, true_and, Nat.sub_zero, hb0, Bool.false_eq_true, false_or,
    hc0] at hlen hbad hcell
  have hbelow (i : Nat) (hi : i < min cs.length 256) : t.ebuf.cell i = decide (cs[i]? = some 0x31#8) := by
    rw [hcell, if_pos hi]
  refine ⟨t, (execAll_cons (exec_clr s) _).trans ht, hlen, hbad, hbelow, fun i hi => ?above, fun hfit hb => ?readBack⟩
  case above => rw [hcell, if_neg (Nat.not_lt.2 hi)]
  case readBack =>
    have hvalid : ∀ c ∈ cs, c = 0x30#8 ∨ c = 0x31#8 := by
      intro c hc
      by_contra hn
      simp [hbad.2 ⟨c, hc, not_or.1 hn⟩] at hb
    exact map_entropyBits_eq (by rw [storedLen_eq, hlen]; omega) hvalid fun i hi => hbelow i (by omega)

end Sys2Proof.Machine
end

section
/-! PROOF. The wordlist (41_wordlist.md R70 to R74, 10_state.md R15): no step from a state that meets the invariant stops, as
every lookup of a run finds an entry; which steps change `WL` and `WLCNT`; the commands `WLCLR` and `WLAPP`. -/

namespace Sys2Proof.Machine

/-! ## Lookups -/

/-- In a run past VALIDATE all 2048 entries are counted, so every index of a lookup finds one (R72). -/
theorem exists_read_index {s : State} (hi : s.Inv) (hp : s.phase.transforming) (a : Index) :
    ∃ w, s.wl.read a.toNat = some w := by
  obtain ⟨_, _, hcount⟩ := hi.inputsValid hp
  have hcounted : a.toNat < min s.wlcnt.toNat Config.wlSize := by
    rw [hcount, Nat.min_self]
    exact a.isLt
  exact Option.isSome_iff_exists.1 (hi.wlAppended _ hcounted)

/-- The engine step of every phase answers a next state: past VALIDATE the length is a permitted one, in the INDEX phase `K`
is a group of the run (42_encode.md R82, R83) and the lookup finds an entry. -/
theorem inv_engineStep_answers {s : State} (hi : s.Inv) : ∃ t, engineStep s = .next t := by
  have lengthPermitted (hp : s.phase.transforming) : inLenSet s.entLen = true := (hi.inputsValid hp).1
  cases hp : s.phase with
  | idle => exact ⟨_, engineStep_idle hp⟩
  | validate =>
    rw [engineStep_validate hp]
    by_cases hf : s.errorFlags = 0#3
    · exact ⟨_, if_pos hf⟩
    · exact ⟨_, if_neg hf⟩
  | pack => exact ⟨_, engineStep_pack hp (lengthPermitted (by simp [hp, Phase.transforming]))⟩
  | hash => exact ⟨_, engineStep_hash hp (lengthPermitted (by simp [hp, Phase.transforming]))⟩
  | csum => exact ⟨_, engineStep_csum hp (lengthPermitted (by simp [hp, Phase.transforming]))⟩
  | concat => exact ⟨_, engineStep_concat hp (lengthPermitted (by simp [hp, Phase.transforming]))⟩
  | index =>
    have htransforming : s.phase.transforming := by simp [hp, Phase.transforming]
    obtain ⟨hk, _⟩ := hi.groupInRange hp
    obtain ⟨w, hw⟩ := exists_read_index hi htransforming (bitPartitioner11 s.full s.k.toNat)
    exact ⟨_, engineStep_index hp (lengthPermitted htransforming) hk hw⟩

/-- Settles O55: a reset edge and an accepted word always answer, and the engine step by `inv_engineStep_answers`. -/
theorem invariantStatesNeverStop : Obligations.InvariantStatesNeverStop := by
  intro s hi
  rcases step_cases s with ⟨rest, _, e⟩ | ⟨_, c, d, rest, _, e⟩ | ⟨h, _, _, _, e⟩ <;> rw [e]
  · exact ⟨_, rfl⟩
  · exact accept_next c _
  · exact inv_engineStep_answers (inv_withHost hi h)

/-! ## Which steps change the wordlist -/

/-- Every command but `WLAPP` and `WLCLR` keeps the wordlist and its count (R74). -/
theorem exec_keeps_wordlist {i : Instr} {s t : State} (he : exec i s = .next t) (ha : i ≠ .wlapp) (hc : i ≠ .wlclr) :
    t.wl = s.wl ∧ t.wlcnt = s.wlcnt := by
  cases i with
  | wlapp => exact absurd rfl ha
  | wlclr => exact absurd rfl hc
  | nop | clr | push _ | enc | inv => cases he; simp

/-- So does every step that is no reset edge and accepts neither of the two. -/
theorem step_keeps_wordlist {s t : State} (hs : step s = .next t) (hr : ¬Resets s) (ha : ¬Accepts s .wlapp)
    (hc : ¬Accepts s .wlclr) : t.wl = s.wl ∧ t.wlcnt = s.wlcnt := by
  rcases step_kinds hs with ⟨h, _⟩ | ⟨_, _, i, rest, d, hi, he⟩ | ⟨_, _, _, rest, d, rfl⟩ | ⟨_, _, _, h, he⟩
  · exact absurd h hr
  · simpa using exec_keeps_wordlist he (by rintro rfl; exact ha hi) (by rintro rfl; exact hc hi)
  · simp
  · obtain ⟨_, _, _, hwl, hcount, _⟩ := engineStep_keeps_inputs he
    exact ⟨by simpa using hwl, by simpa using hcount⟩

/-- Settles O49: a reset edge and `WLCLR` are one update each; any other step is `step_keeps_wordlist`, and a busy block
accepts no command. -/
theorem wordlistChangesOnlyHere : Obligations.WordlistChangesOnlyHere := by
  intro s t hs
  refine ⟨fun hr => ?reset, fun hc => ?clears, step_keeps_wordlist hs, fun hr hp => ?busy⟩
  case reset =>
    obtain ⟨rest, hh⟩ := hr
    cases (step_reset hh).symm.trans hs
    simp
  case clears =>
    obtain ⟨_, d, rest, _, e⟩ := step_accepts hc
    cases e.symm.trans hs
    simp
  case busy => exact step_keeps_wordlist hs hr (fun h => hp h.idle) (fun h => hp h.idle)

/-! ## The two commands -/

/-- Settles O6: `WLCLR` is one named update of `WLCNT`. -/
theorem wlclrForgetsTheCount : Obligations.WlclrForgetsTheCount := by
  refine ⟨decode_encode .wlclr, fun s => ⟨_, exec_wlclr s, ?count, fun a => ?cells, ?frame⟩⟩
  case count => simp
  case cells => rw [State.forgetEntries_wl]
  case frame => simp [SameEntropy, SameDatapath, SameResult, SameStatus, SameOutside]

/-- Sampling the operand that is sampled already changes nothing. -/
theorem sampleWdata_wdata_self (s : State) : s.sampleWdata s.wdata = s := by cases s; rfl

/-- The wordlist after `WLAPP`, cell by cell (R71). -/
theorem read_wlapp (s : State) (a : Nat) : (s.storeEntry s.appendCell s.wdata).countEntry.wl.read a =
    if a = s.wlcnt.toNat ∧ a < 2048 then some s.wdata else s.wl.read a := by
  rw [← read_append, sampleWdata_wdata_self]

/-- Settles O7: the cells by `read_wlapp`, the frame by the lemmas of the two updates. -/
theorem wlappAppendsOneEntry : Obligations.WlappAppendsOneEntry := by
  refine ⟨decode_encode .wlapp, fun s => ⟨_, exec_wlapp s, appendCell_eq_some s, fun a ha => ?stored,
    fun a ha => ?kept, ?count, ?frame⟩⟩
  case stored =>
    obtain ⟨rfl, hlt⟩ := (appendCell_eq_some s a).1 ha
    rw [read_wlapp, if_pos ⟨rfl, hlt⟩]
  case kept =>
    rw [read_wlapp, if_neg]
    rintro ⟨rfl, hlt⟩
    exact ha ((appendCell_eq_some s _).2 ⟨rfl, hlt⟩)
  case count => simp
  case frame => simp [SameEntropy, SameDatapath, SameResult, SameStatus, SameOutside]

end Sys2Proof.Machine
end

section
/-! PROOF. The accepting step of `ENC` and the engine steps before INDEX (42_encode.md R75 to R81): each answers one named
update, whose registers are the lemmas of Laws/State.lean and whose value is one function of Machine/Datapath.lean. -/

namespace Sys2Proof.Machine

/-- Settles O20: a table of five rows, evaluated. -/
theorem lengthFunctionTable : Obligations.LengthFunctionTable := by
  unfold Obligations.LengthFunctionTable
  decide

/-- Settles O4: `ENC` is two named updates; what each leaves in a field is the field's lemma. -/
theorem encStartsRun : Obligations.EncStartsRun := by
  refine ⟨decode_encode .enc, fun s => ⟨_, exec_enc s, ?done, ?err, ?nwords, ?phase, ?busy, ?ready, ?frame⟩⟩
  case busy | ready => simp [State.busy, State.cmdReady]
  case frame => simp [SameEntropy, SameWordlist, SameDatapath, SameResult, SameOutside]
  all_goals simp

/-- Settles O28: the acceptance of `ENC` is two updates of other registers, and an engine step is
`engineStep_keeps_inputs`. -/
theorem encodingNeverWritesItsInputs : Obligations.EncodingNeverWritesItsInputs := by
  rintro s t (h | h)
  · cases h
    simp
  · exact engineStep_keeps_inputs h

/-- The permitted lengths, as the statements list them (R5). -/
theorem mem_lenSet_iff (s : State) : s.len.toNat ∈ [128, 160, 192, 224, 256] ↔ inLenSet s.entLen = true := by
  simp [inLenSet_iff, State.entLen]

/-- The packed message of a permitted length is whole bytes, at most as many as `MSG` has (R76). -/
theorem nb_exact {L : Nat} (h : inLenSet L = true) : 8 * nb L = L ∧ nb L ≤ 32 := by
  rw [inLenSet_iff] at h
  simp only [nb]; omega

/-- The checksum of a permitted length fits `CS`, and entropy and checksum together fit `FULL` (R76). -/
theorem cslen_fits {L : Nat} (h : inLenSet L = true) : cslen L ≤ 8 ∧ flen L ≤ 264 := by
  rw [inLenSet_iff] at h
  simp only [cslen, flen]; omega

/-! ## VALIDATE -/

/-- The causes of R77 hold exactly when the inputs are not valid. -/
theorem not_validInputs_iff (s : State) : ¬s.ValidInputs ↔
    s.len.toNat ∉ [128, 160, 192, 224, 256] ∨ s.badch = true ∨ s.wlcnt.toNat ≠ 2048 := by
  rw [State.ValidInputs, mem_lenSet_iff, not_and_or, not_and_or, Bool.not_eq_false]

theorem engineStep_valid {s : State} (hp : s.phase = .validate) (hv : s.ValidInputs) :
    engineStep s = .next (s.toPhase .pack) := by
  rw [engineStep_validate hp, if_pos ((errorFlags_eq_zero s).2 hv)]

theorem engineStep_invalid {s : State} (hp : s.phase = .validate) (hv : ¬s.ValidInputs) :
    engineStep s = .next (s.raiseErrors s.errorFlags) := by
  rw [engineStep_validate hp, if_neg (mt (errorFlags_eq_zero s).1 hv)]

/-- Settles O21: with a cause the step is `raiseErrors` of the flags, which `getLsbD_errorFlags` reads; without one only
`PHASE` moves. -/
theorem validateReportsAllCauses : Obligations.ValidateReportsAllCauses := by
  intro s hp
  by_cases hv : s.ValidInputs
  · refine ⟨_, engineStep_valid hp hv, ⟨fun hc => absurd hv ((not_validInputs_iff s).2 hc), fun _ => ?passes⟩, ?frame⟩
    case passes => simp
    case frame => simp [SameEntropy, SameWordlist, SameDatapath, SameResult, SameOutside]
  · refine ⟨_, engineStep_invalid hp hv, ⟨fun _ => ⟨?flags, ?ends⟩, fun hc => absurd ((not_validInputs_iff s).1 hv) hc⟩,
      ?frame⟩
    case flags => rw [State.raiseErrors_err]; exact getLsbD_errorFlags s
    case ends => simp
    case frame => simp [SameEntropy, SameWordlist, SameDatapath, SameResult, SameOutside]

/-! ## PACK -/

/-- The packed bytes (R78): those below `nb(L)` hold the buffer, the others are zero. -/
theorem entry_entropyBitPacker (ebuf : BitArray 256) {L j : Nat} (hj : j < 32) :
    Regs.entry (entropyBitPacker ebuf L) j 0 = if j < nb L then packedByte ebuf j else 0x00#8 := by
  rw [entropyBitPacker, Regs.entry_tabulate, if_pos hj]

/-- The packed bytes read as one big-endian number are the buffer read as one (R78). -/
theorem foldl_packed (ebuf : BitArray 256) {L n : Nat} (hn : n ≤ nb L) (h32 : n ≤ 32) :
    (List.range n).foldl (fun v j => 256 * v + (Regs.entry (entropyBitPacker ebuf L) j 0).toNat) 0 =
      bitsVal ((List.range (8 * n)).map ebuf.cell) := by
  rw [← foldl_bitsVal_bytes]
  refine List.foldl_ext _ _ _ fun v j hj => ?_
  rw [List.mem_range] at hj
  rw [entry_entropyBitPacker ebuf (by omega), if_pos (by omega), packedByte, BitArray.toNat_tabulate]

/-- Settles O22: byte `j` is `packedByte` below `nb(L)`, and `L` is a multiple of 8 not above 256. -/
theorem packIsBigEndianFixedWidth : Obligations.PackIsBigEndianFixedWidth := by
  intro s hp hlen
  have hL := (mem_lenSet_iff s).1 hlen
  obtain ⟨hexact, hfits⟩ : 8 * nb s.entLen = s.len.toNat ∧ nb s.entLen ≤ 32 := nb_exact hL
  refine ⟨_, engineStep_pack hp hL, ?phase, fun j hj i hi => ?bits, fun j hge hj => ?zeros, ?number, ?frame⟩
  case phase => simp
  case frame => simp [SameEntropy, SameWordlist, SameResult, SameStatus, SameOutside]
  all_goals rw [State.toPhase_msg, State.setMsg_msg]
  case bits =>
    have h32 : j < 32 := hj.trans_le hfits
    rw [entry_entropyBitPacker _ h32, if_pos (show j < nb s.entLen from hj), packedByte,
      BitArray.getLsbD_tabulate_byte _ hi]
  case zeros => rw [entry_entropyBitPacker _ hj, if_neg (show ¬j < nb s.entLen from Nat.not_lt.2 hge)]
  case number => exact (foldl_packed s.ebuf le_rfl hfits).trans (by rw [hexact])

/-! ## HASH -/

/-- The first `n` entries of a register array, as a list. -/
theorem map_entry_range {α : Type} {m n : Nat} (v : Vector α m) (d : α) (h : n ≤ m) :
    (List.range n).map (fun j => Regs.entry v j d) = v.toList.take n := by
  apply List.ext_getElem
  · simp [h]
  · intro i hi _
    have him : i < m := by simp at hi; omega
    simp [Regs.entry, him]

/-- Settles O23: the hash unit gets the first `nb(L)` bytes of the bus, and these are the first of `MSG`. -/
theorem hashCoversExactlyTheMessage : Obligations.HashCoversExactlyTheMessage := by
  intro s hp hlen
  have hL := (mem_lenSet_iff s).1 hlen
  refine ⟨_, engineStep_hash hp hL, ?phase, ?digest, ?frame⟩
  case phase => simp
  case digest =>
    rw [State.toPhase_digest, State.setDigest_digest, sha256HashUnit_shaMsg _ hL, map_entry_range _ _ (nb_exact hL).2]
    rfl
  case frame => simp [SameEntropy, SameWordlist, SameResult, SameStatus, SameOutside]

/-! ## CSUM -/

/-- The checksum is the first digest byte shifted right (R80). -/
theorem checksumExtractor_eq_shift (d : BitVec 256) {c : Nat} (hc : c ≤ 8) :
    checksumExtractor d c = d.extractLsb' 248 8 >>> (8 - c) := by
  apply BitVec.eq_of_getLsbD_eq
  intro i hi
  rw [getLsbD_checksumExtractor d hc, BitVec.getLsbD_ushiftRight, BitVec.getLsbD_extractLsb', BitVec.getMsbD_eq_getLsbD]
  by_cases h : i < c
  · have hbyte : 8 - c + i < 8 := by omega
    have hdigest : c - 1 - i < 256 := by omega
    have hbit : 256 - 1 - (c - 1 - i) = 248 + (8 - c + i) := by omega
    simp [h, hbyte, hdigest, hbit]
  · have hbyte : ¬8 - c + i < 8 := by omega
    simp [h, hbyte]

/-- Settles O24: the bits by `getLsbD_checksumExtractor`, the shifted byte by `checksumExtractor_eq_shift`. -/
theorem checksumIsTheLeadingDigestBits : Obligations.ChecksumIsTheLeadingDigestBits := by
  intro s hp hlen
  have hL := (mem_lenSet_iff s).1 hlen
  have hc : s.len.toNat / 32 ≤ 8 := (cslen_fits hL).1
  have hbit (i : Nat) := getLsbD_checksumExtractor s.digest hc i
  refine ⟨_, engineStep_csum hp hL, ?phase, fun i hi => ?bits, fun i hi => ?zeros, ?shifted, ?frame⟩
  case phase => simp
  case frame => simp [SameEntropy, SameWordlist, SameResult, SameStatus, SameOutside]
  all_goals rw [State.toPhase_cs, State.setChecksum_cs]
  case bits =>
    have hcell : s.len.toNat / 32 - 1 - i < s.len.toNat / 32 := by omega
    have hindex : s.len.toNat / 32 - 1 - (s.len.toNat / 32 - 1 - i) = i := by omega
    have hdigest : i < 256 := by omega
    rw [cslen, State.entLen, hbit, hindex, BitVec.getMsbD_eq_getLsbD]
    simp [hcell, hdigest]
  case zeros =>
    rw [cslen, State.entLen, hbit, decide_eq_false (Nat.not_lt.2 hi), Bool.false_and]
  case shifted => exact checksumExtractor_eq_shift s.digest hc

/-! ## CONCAT -/

/-- Settles O25: `FULL` is tabulated from the three ranges of cells, of which the first two fit its 264 cells. -/
theorem concatJoinsEntropyAndChecksum : Obligations.ConcatJoinsEntropyAndChecksum := by
  intro s hp hlen
  have hL := (mem_lenSet_iff s).1 hlen
  have hfits : s.len.toNat + s.len.toNat / 32 ≤ 264 := (cslen_fits hL).2
  refine ⟨_, engineStep_concat hp hL, ?phase, ?k, fun i hi => ?entropy, fun i hi => ?checksum, fun i hi => ?zeros, ?frame⟩
  case phase | k => simp
  case frame => simp [SameEntropy, SameWordlist, SameResult, SameStatus, SameOutside]
  all_goals
    rw [State.toPhase_full, State.setFull_full, entropyChecksumConcatenator, BitArray.cell_tabulate, cslen, State.entLen]
  case entropy =>
    have hcell : i < 264 := by omega
    simp [hi, hcell]
  case checksum =>
    have hcell : s.len.toNat + i < 264 := by omega
    simp [hi, hcell]
  case zeros =>
    have habove : ¬i < s.len.toNat := by omega
    simp [habove, Nat.not_lt.2 hi]

end Sys2Proof.Machine
end

section
/-! PROOF. The INDEX step (42_encode.md R82, R83), the order of the phases (R85, R106), and which engine steps answer. -/

namespace Sys2Proof.Machine

/-- The choice at the end of an INDEX step is about `K`, `NWORDS`, `DONE` and `PHASE`; it keeps every other register. -/
theorem nextGroup_keeps (s : State) : SameEntropy s s.nextGroup ∧ SameWordlist s s.nextGroup ∧
    SameResult s s.nextGroup ∧ s.nextGroup.err = s.err ∧ s.nextGroup.msg = s.msg ∧ s.nextGroup.digest = s.digest ∧
    s.nextGroup.cs = s.cs ∧ s.nextGroup.full = s.full ∧ s.nextGroup.ill = s.ill ∧ SameOutside s s.nextGroup := by
  rcases nextGroup_cases s with ⟨_, e⟩ | ⟨_, e⟩ <;> rw [e] <;>
    simp [SameEntropy, SameWordlist, SameResult, SameOutside]

/-- The last group of a run publishes the result (R84). -/
theorem nextGroup_last {s : State} (h : s.k.toNat + 1 = nw s.entLen) : s.nextGroup = s.publish (nw s.entLen) :=
  if_pos h

/-- Any other group is followed by the next one (R83). -/
theorem nextGroup_more {s : State} (h : s.k.toNat + 1 ≠ nw s.entLen) : s.nextGroup = s.advanceK :=
  if_neg h

/-- Settles O26: the step is `storeResult`, which writes one cell of each array, and then `nextGroup`, which publishes the
result or counts `K` up. -/
theorem indexStoresOneWord : Obligations.IndexStoresOneWord := by
  intro s w hp hlen hk a n hw
  have hL := (mem_lenSet_iff s).1 hlen
  have hmax := (nw_le hL).2
  have hK : s.k.toNat < nw s.entLen := hk
  have ha : (bitPartitioner11 s.full s.k.toNat).toNat = a := toNat_group_raw s.full s.k.toNat
  have hstep := engineStep_index hp hL hK (ha ▸ hw)
  generalize hg : bitPartitioner11 s.full s.k.toNat = g at ha hstep
  obtain ⟨hentropy, hwordlist, ⟨hmidx, hmword⟩, hrest⟩ := nextGroup_keeps (s.storeResult s.k.toNat g w)
  have hcell : s.k.toNat < 24 := by omega
  refine ⟨_, hstep, ha ▸ g.isLt, ?index, ?word, fun j hj => ?others, fun hlast => ?publish, fun hmore => ?count,
    ?entropy, ?wordlist, ?rest⟩
  case index => rw [hmidx, State.storeResult_midx, Regs.entry_setEntry, if_pos ⟨rfl, hcell⟩, ha]
  case word => rw [hmword, State.storeResult_mword, Regs.entry_setEntry, if_pos ⟨rfl, hcell⟩]
  case others =>
    rw [hmidx, hmword, State.storeResult_midx, State.storeResult_mword, Regs.entry_setEntry, Regs.entry_setEntry,
      if_neg (fun h => hj h.1), if_neg (fun h => hj h.1)]
    exact ⟨rfl, rfl⟩
  case publish =>
    rw [nextGroup_last (s := s.storeResult s.k.toNat g w) hlast]
    exact ⟨toNat_ofNat_nw hL, by simp⟩
  case count =>
    rw [nextGroup_more (s := s.storeResult s.k.toNat g w) hmore]
    exact ⟨toNat_nextK (k := s.k) (by omega), by simp [hp]⟩
  case entropy => simpa [SameEntropy] using hentropy
  case wordlist => simpa [SameWordlist] using hwordlist
  case rest => simpa [SameOutside] using hrest

/-- Settles O27: one case of `engineStep_cases` for each row of the order; the flags of VALIDATE are 0 exactly on valid
inputs, and the INDEX step has the two cases of `nextGroup`. -/
theorem phasesFollowTheFixedOrder : Obligations.PhasesFollowTheFixedOrder := by
  intro s t h hbusy
  rcases engineStep_cases h with ⟨hp, _⟩ | ⟨hp, hf, rfl⟩ | ⟨hp, hf, rfl⟩ | ⟨hp, _, rfl⟩ | ⟨hp, _, rfl⟩ | ⟨hp, _, rfl⟩ |
    ⟨hp, _, rfl⟩ | ⟨hp, hl, hk, w, _, rfl⟩
  · exact absurd hp hbusy
  · have hv : s.ValidInputs := (errorFlags_eq_zero s).1 hf
    exact .inl ⟨hp, by simp [hv], by simp [hv]⟩
  · have hv : ¬s.ValidInputs := mt (errorFlags_eq_zero s).2 hf
    exact .inl ⟨hp, by simp [hv], by simp [hv]⟩
  · exact .inr (.inl ⟨hp, by simp⟩)
  · exact .inr (.inr (.inl ⟨hp, by simp⟩))
  · exact .inr (.inr (.inr (.inl ⟨hp, by simp⟩)))
  · exact .inr (.inr (.inr (.inr (.inl ⟨hp, by simp⟩))))
  · refine .inr (.inr (.inr (.inr (.inr ?_))))
    have hmax := (nw_le hl).2
    rcases nextGroup_cases (s.storeResult s.k.toNat (bitPartitioner11 s.full s.k.toNat) w) with ⟨hlast, e⟩ | ⟨hmore, e⟩ <;>
      rw [e]
    · exact .inl ⟨hp, hlast, by simp⟩
    · have hmore : s.k.toNat + 1 ≠ nw s.entLen := hmore
      exact .inr ⟨hp, by omega, by simp [hp], toNat_nextK (k := s.k) (by omega)⟩

/-! ## Which steps answer -/

/-- An engine step answers exactly when it is one of IDLE or VALIDATE, or the length is a permitted one and, in the INDEX
phase, `K` is a group of the run whose cell of `WL` holds an entry (R76, R82, R83). -/
theorem engineStep_answers_iff (s : State) : (∃ t, engineStep s = .next t) ↔
    (s.phase.transforming → inLenSet s.entLen = true ∧ (s.phase = .index → s.k.toNat < nw s.entLen ∧
      ∃ w, s.wl.read (bitPartitioner11 s.full s.k.toNat).toNat = some w)) := by
  constructor
  · rintro ⟨t, h⟩ ⟨hidle, hvalidate⟩
    rcases engineStep_cases h with ⟨hp, _⟩ | ⟨hp, _⟩ | ⟨hp, _⟩ | ⟨hp, hl, _⟩ | ⟨hp, hl, _⟩ | ⟨hp, hl, _⟩ | ⟨hp, hl, _⟩ |
      ⟨hp, hl, hk, w, hw, _⟩
    · exact absurd hp hidle
    · exact absurd hp hvalidate
    · exact absurd hp hvalidate
    case inr.inr.inr.inr.inr.inr.inr => exact ⟨hl, fun _ => ⟨hk, w, hw⟩⟩
    all_goals exact ⟨hl, by simp [hp]⟩
  · intro h
    cases hp : s.phase with
    | idle => exact ⟨_, engineStep_idle hp⟩
    | validate =>
      by_cases hv : s.ValidInputs
      · exact ⟨_, engineStep_valid hp hv⟩
      · exact ⟨_, engineStep_invalid hp hv⟩
    | pack => exact ⟨_, engineStep_pack hp (h (by simp [hp, Phase.transforming])).1⟩
    | hash => exact ⟨_, engineStep_hash hp (h (by simp [hp, Phase.transforming])).1⟩
    | csum => exact ⟨_, engineStep_csum hp (h (by simp [hp, Phase.transforming])).1⟩
    | concat => exact ⟨_, engineStep_concat hp (h (by simp [hp, Phase.transforming])).1⟩
    | index =>
      obtain ⟨hl, hindex⟩ := h (by simp [hp, Phase.transforming])
      obtain ⟨hk, w, hw⟩ := hindex hp
      exact ⟨_, engineStep_index hp hl hk hw⟩

/-- The engine step that does not answer, by its reasons. -/
theorem engineStep_stops_iff (s : State) : (¬∃ t, engineStep s = .next t) ↔
    s.phase.transforming ∧ (inLenSet s.entLen = false ∨ (s.phase = .index ∧ (nw s.entLen ≤ s.k.toNat ∨
      s.wl.read (bitsVal ((List.range 11).map (fun i => s.full.cell (11 * s.k.toNat + i)))) = none))) := by
  rw [engineStep_answers_iff, ← toNat_group_raw, ← Option.ne_none_iff_exists', ← Nat.not_lt, ← Bool.not_eq_true]
  tauto

/-- Settles O29: a reset edge and an accepted word answer, the latter in the phase IDLE; any other step is an engine step,
to which the coming moves do not matter. -/
theorem stepStopsExactlyHere : Obligations.StepStopsExactlyHere := by
  intro s
  rcases step_cases s with ⟨rest, hh, e⟩ | ⟨hp, c, d, rest, hh, e⟩ | ⟨h, _, hr, _, e⟩ <;> rw [e]
  · exact ⟨fun hn => absurd ⟨_, rfl⟩ hn, fun hn => absurd ⟨rest, hh⟩ hn.1⟩
  · exact ⟨fun hn => absurd (accept_next c _) hn, fun hn => absurd hp hn.2.1.1⟩
  · have hnoreset : ¬Resets s := fun ⟨rest, hh⟩ => hr _ _ hh rfl
    rw [engineStep_stops_iff, and_iff_right hnoreset]
    exact Iff.rfl

end Sys2Proof.Machine
end

section
/-! PROOF. A run to its end (42_encode.md R85). Every engine step of a busy block takes one from the number of steps left, so
a property that engine steps keep holds at the end of the run, and a run whose steps all answer gets there. -/

namespace Sys2Proof.Machine

/-- How many engine steps the run in progress still takes (R85). -/
def State.stepsLeft (s : State) : Nat :=
  match s.phase with
  | .idle => 0
  | .validate => s.runSteps
  | .pack => 4 + nw s.entLen
  | .hash => 3 + nw s.entLen
  | .csum => 2 + nw s.entLen
  | .concat => 1 + nw s.entLen
  | .index => nw s.entLen - (s.k.toNat + 1) + 1

theorem runSteps_of_valid {s : State} (hv : s.ValidInputs) : s.runSteps = 5 + nw s.entLen :=
  if_pos ((errorFlags_eq_zero s).2 hv)

theorem runSteps_of_invalid {s : State} (hv : ¬s.ValidInputs) : s.runSteps = 1 :=
  if_neg (mt (errorFlags_eq_zero s).1 hv)

/-- A busy block has a step left. -/
theorem stepsLeft_pos {s : State} (hp : s.phase ≠ .idle) : 0 < s.stepsLeft := by
  unfold State.stepsLeft
  cases h : s.phase with
  | idle => exact absurd h hp
  | validate =>
    by_cases hv : s.ValidInputs
    · simp [runSteps_of_valid hv]
    · simp [runSteps_of_invalid hv]
  | pack | hash | csum | concat | index => simp

/-- An engine step of a busy block takes one from the steps left. -/
theorem stepsLeft_engineStep {s t : State} (hp : s.phase ≠ .idle) (h : engineStep s = .next t) :
    s.stepsLeft = t.stepsLeft + 1 := by
  rcases engineStep_cases h with ⟨hi, _⟩ | ⟨hp, hf, rfl⟩ | ⟨hp, hf, rfl⟩ | ⟨hp, _, rfl⟩ | ⟨hp, _, rfl⟩ | ⟨hp, _, rfl⟩ |
    ⟨hp, hl, rfl⟩ | ⟨hp, hl, hk, w, _, rfl⟩
  · exact absurd hi hp
  · simp [State.stepsLeft, hp, State.runSteps, hf, State.entLen]; omega
  · simp [State.stepsLeft, hp, State.runSteps, hf]
  · simp [State.stepsLeft, hp, State.entLen]; omega
  · simp [State.stepsLeft, hp, State.entLen]; omega
  · simp [State.stepsLeft, hp, State.entLen]; omega
  · have hpos : 12 ≤ nw s.len.toNat := (nw_le hl).1
    simp [State.stepsLeft, hp, State.entLen]; omega
  · have hmax := (nw_le hl).2
    rcases nextGroup_cases (s.storeResult s.k.toNat (bitPartitioner11 s.full s.k.toNat) w) with ⟨hlast, e⟩ | ⟨hmore, e⟩ <;>
      rw [e]
    · have hlast : s.k.toNat + 1 = nw s.entLen := hlast
      simp [State.stepsLeft, hp, hlast]
    · have hmore : s.k.toNat + 1 ≠ nw s.entLen := hmore
      have hnext := toNat_nextK (k := s.k) (by omega)
      simp only [State.stepsLeft, hp, State.advanceK_phase, State.storeResult_phase, State.advanceK_k,
        State.storeResult_k, hnext, entLen_congr (State.advanceK_len _), entLen_congr (State.storeResult_len s _ _ _)]
      omega

/-- An engine step keeps the model's own fields, the coming moves among them. -/
theorem engineStep_keeps_outside {s t : State} (h : engineStep s = .next t) : SameOutside s t := by
  rcases engineStep_cases h with ⟨_, rfl⟩ | ⟨_, _, rfl⟩ | ⟨_, _, rfl⟩ | ⟨_, _, rfl⟩ | ⟨_, _, rfl⟩ | ⟨_, _, rfl⟩ |
    ⟨_, _, rfl⟩ | ⟨_, _, _, w, _, rfl⟩
  case inr.inr.inr.inr.inr.inr.inr =>
    obtain ⟨-, -, -, -, -, -, -, -, -, hkeep⟩ := nextGroup_keeps (s.storeResult s.k.toNat (bitPartitioner11 s.full s.k.toNat) w)
    simpa [SameOutside] using hkeep
  all_goals simp [SameOutside]

/-- A property of the block that the engine steps of a run keep, and that is not about the coming moves. -/
structure KeptByEngine (P : State → Prop) : Prop where
  /-- The coming moves do not matter. -/
  moves : ∀ {s : State} (h : List HostMove), P s → P (s.withHost h)
  /-- Every engine step of a busy block keeps it. -/
  engine : ∀ {s t : State}, s.phase ≠ .idle → P s → engineStep s = .next t → P t

/-- One step of a run with no reset coming: it keeps the property, no reset comes after it, and one step less is left. -/
theorem KeptByEngine.step {P : State → Prop} (hP : KeptByEngine P) {s t : State} (hn : NoReset s)
    (hp : s.phase ≠ .idle) (hs : P s) (h : step s = .next t) : NoReset t ∧ P t ∧ s.stepsLeft = t.stepsLeft + 1 := by
  obtain ⟨moves, hmoves, e⟩ := step_busy hn hp
  have he := e.symm.trans h
  obtain ⟨-, hhost, -⟩ := engineStep_keeps_outside he
  have hhost : t.host = moves := by simpa using hhost
  exact ⟨by rwa [NoReset, hhost], hP.engine (s := s.withHost moves) hp (hP.moves moves hs) he,
    stepsLeft_engineStep (s := s.withHost moves) hp he⟩

/-- At the end of a run the block is idle and the property holds. -/
theorem KeptByEngine.run_end {P : State → Prop} (hP : KeptByEngine P) {s t : State} (hn : NoReset s) (hs : P s)
    (h : run s.stepsLeft s = .next t) : P t ∧ t.phase = .idle := by
  generalize hleft : s.stepsLeft = n at h
  induction n generalizing s with
  | zero =>
    cases h
    refine ⟨hs, by_contra fun hp => ?_⟩
    exact absurd hleft (stepsLeft_pos hp).ne'
  | succ n ih =>
    have hp : s.phase ≠ .idle := by
      intro hp
      simp [State.stepsLeft, hp] at hleft
    cases hstep : Machine.step s with
    | next u =>
      obtain ⟨hnu, hu, hless⟩ := hP.step hn hp hs hstep
      exact ih hnu hu (by omega) (by rwa [run_succ_of_next n hstep] at h)
    | fault f => simp [run, hstep] at h
    | refused r => simp [run, hstep] at h

/-- If the engine step of every busy state with the property answers, so do all steps of the run, and the block is busy
until its end. -/
theorem KeptByEngine.run_answers {P : State → Prop} (hP : KeptByEngine P)
    (hans : ∀ {s : State}, s.phase ≠ .idle → P s → ∃ t, engineStep s = .next t) {s : State} (hn : NoReset s) (hs : P s) :
    (∃ t, run s.stepsLeft s = .next t) ∧ ∀ m < s.stepsLeft, ∃ u, run m s = .next u ∧ P u ∧ u.phase ≠ .idle := by
  generalize hleft : s.stepsLeft = n
  induction n generalizing s with
  | zero => exact ⟨⟨s, rfl⟩, fun m hm => absurd hm (Nat.not_lt_zero m)⟩
  | succ n ih =>
    have hp : s.phase ≠ .idle := by
      intro hp
      simp [State.stepsLeft, hp] at hleft
    obtain ⟨u, hstep⟩ : ∃ u, Machine.step s = .next u := by
      obtain ⟨moves, _, e⟩ := step_busy hn hp
      exact e ▸ hans (s := s.withHost moves) hp (hP.moves moves hs)
    obtain ⟨hnu, hu, hless⟩ := hP.step hn hp hs hstep
    obtain ⟨hend, hbefore⟩ := ih hnu hu (by omega)
    refine ⟨by rwa [run_succ_of_next n hstep], fun m hm => ?_⟩
    cases m with
    | zero => exact ⟨s, rfl, hs, hp⟩
    | succ m =>
      rw [run_succ_of_next m hstep]
      exact hbefore m (by omega)

/-! ## Every run ends -/

/-- `DONE` is set once the block is idle: not so of a block that waits for its first run, but so of every state of a run. -/
def State.DoneWhenIdle (s : State) : Prop := s.phase = .idle → s.done = true

/-- The step that ends a run sets `DONE` (10_state.md R25). -/
theorem doneWhenIdle_engineStep {s t : State} (hp : s.phase ≠ .idle) (h : engineStep s = .next t) : t.DoneWhenIdle := by
  intro ht
  rcases engineStep_status h with ⟨_, rfl⟩ | ⟨_, _, w, rfl⟩ | ⟨_, _, _, hidle⟩
  · simp
  · simp
  · exact absurd (hidle.1 ht) hp

/-- The engine keeps the invariant, and that a run which has ended has set `DONE`. -/
theorem keptByEngine_inv : KeptByEngine (fun s => s.Inv ∧ s.DoneWhenIdle) where
  moves h := fun ⟨hi, hd⟩ => ⟨inv_withHost hi h, hd⟩
  engine hp := fun ⟨hi, _⟩ h => ⟨inv_engineStep hi h, doneWhenIdle_engineStep hp h⟩

/-- A run takes 29 engine steps at most (R85). -/
theorem stepsLeft_le {s : State} (hi : s.Inv) : s.stepsLeft ≤ 29 := by
  have hmax (hp : s.phase.transforming) : nw s.entLen ≤ 24 := (nw_le (hi.inputsValid hp).1).2
  unfold State.stepsLeft
  cases h : s.phase with
  | idle => simp
  | validate =>
    by_cases hv : s.ValidInputs
    · have := (nw_le hv.1).2
      simp only [runSteps_of_valid hv]; omega
    · simp [runSteps_of_invalid hv]
  | pack | hash | csum | concat | index =>
    have := hmax (by simp [h, Phase.transforming])
    simp only; omega

/-- Settles O33: the run has `stepsLeft` steps, all of them answered by `inv_engineStep_answers`. -/
theorem everyRunEnds : Obligations.EveryRunEnds := by
  intro s hi hn hp
  have hs : s.Inv ∧ s.DoneWhenIdle := ⟨hi, fun h => absurd h hp⟩
  obtain ⟨⟨t, ht⟩, hbefore⟩ := keptByEngine_inv.run_answers (fun _ hs => inv_engineStep_answers hs.1) hn hs
  obtain ⟨⟨_, hdone⟩, hidle⟩ := keptByEngine_inv.run_end hn hs ht
  refine ⟨s.stepsLeft, t, stepsLeft_pos hp, stepsLeft_le hi, ht, hidle, hdone hidle, fun m hm => ?_⟩
  obtain ⟨u, hu, ⟨hui, _⟩, hbusy⟩ := hbefore m hm
  exact ⟨u, hu, hbusy, (hui.runHidden hbusy).2.2⟩

end Sys2Proof.Machine
end

section
/-! PROOF. A run that `ENC` starts (42_encode.md R84 to R88): what each of its states holds, from the acceptance of `ENC` to the
idle state at its end. Whether such a run answers hangs on the lookups of the mnemonic alone. -/

namespace Sys2Proof.Machine

/-- The inputs of an encode run, and `ILL` (R90). -/
def SameInputs (s t : State) : Prop :=
  t.ebuf = s.ebuf ∧ t.len = s.len ∧ t.badch = s.badch ∧ t.wl = s.wl ∧ t.wlcnt = s.wlcnt ∧ t.ill = s.ill

theorem SameInputs.trans {s t u : State} (h : SameInputs s t) (h' : SameInputs t u) : SameInputs s u := by
  obtain ⟨h1, h2, h3, h4, h5, h6⟩ := h
  obtain ⟨h1', h2', h3', h4', h5', h6'⟩ := h'
  exact ⟨h1'.trans h1, h2'.trans h2, h3'.trans h3, h4'.trans h4, h5'.trans h5, h6'.trans h6⟩

/-- What a run reads from its inputs. -/
theorem SameInputs.reads {s t : State} (h : SameInputs s t) : t.entLen = s.entLen ∧ t.entropyBits = s.entropyBits ∧
    (t.ValidInputs ↔ s.ValidInputs) ∧ t.errorFlags = s.errorFlags ∧ t.runSteps = s.runSteps := by
  obtain ⟨hcells, hlen, hbad, -, hcount, -⟩ := h
  have hL := entLen_congr hlen
  exact ⟨hL, entropyBits_congr hcells hlen, by rw [State.ValidInputs, State.ValidInputs, hL, hbad, hcount],
    errorFlags_congr hlen hbad hcount, runSteps_congr hlen hbad hcount⟩

/-- The result buffer of `t` holds the mnemonic of the entropy of `s`, with the words of its wordlist (R86). -/
def HoldsMnemonic (s t : State) : Prop :=
  t.IndicesAre s.entropyBits (nw s.entLen) ∧
  ∀ k < nw s.entLen, s.wl.read (Regs.entry t.midx k 0#11).toNat = some (Regs.entry t.mword k 0)

/-- What `t` shows at the end of a run on the inputs of `s`: the causes, or the mnemonic (R77, R84). -/
inductive ShowsResult (s t : State) : Prop
  | failed (invalid : ¬s.ValidInputs) (err : t.err = s.errorFlags) (nwords : t.nwords = 0#5)
  | finished (valid : s.ValidInputs) (err : t.err = 0#3) (nwords : t.nwords.toNat = nw s.entLen)
      (holds : HoldsMnemonic s t)

/-- `t` is a state of a run on the inputs of `s`. -/
structure RunOf (s t : State) : Prop where
  /-- The run does not write its inputs. -/
  inputs : SameInputs s t
  /-- Until its end it shows nothing, and its registers hold what their phases say. -/
  running : t.phase ≠ .idle → t.nwords = 0#5 ∧ t.err = 0#3 ∧ t.RunData
  /-- It gets past VALIDATE on valid inputs only. -/
  valid : t.phase.transforming → s.ValidInputs
  /-- `K` is a group of the run. -/
  group : t.phase = .index → t.k.toNat < nw s.entLen
  /-- At its end it shows its result. -/
  ended : t.phase = .idle → t.done = true ∧ ShowsResult s t

theorem RunOf.dataInv {s t : State} (h : RunOf s t) (hp : t.phase ≠ .idle) : t.DataInv := by
  obtain ⟨hn, _, hd⟩ := h.running hp
  exact dataInv_of_runData hd (absurd hn)

/-- After an engine step, `K` is a group of the run in the INDEX phase (R81, R83). -/
theorem group_of_engineStep {s t : State} (hbusy : s.phase ≠ .idle) (h : engineStep s = .next t) (ht : t.phase = .index) :
    t.k.toNat < nw s.entLen := by
  have hanswers := (engineStep_answers_iff s).1 ⟨t, h⟩
  rcases phasesFollowTheFixedOrder s t h hbusy with ⟨hp, hpack, hidle⟩ | ⟨_, hp⟩ | ⟨_, hp⟩ | ⟨_, hp⟩ | ⟨hp, _, hk⟩ |
    ⟨_, _, hp⟩ | ⟨_, hk, _, hk'⟩
  case inr.inr.inr.inr.inl =>
    have hpos := (nw_le (hanswers (by simp [hp, Phase.transforming])).1).1
    simp only [hk, BitVec.toNat_zero]; omega
  case inr.inr.inr.inr.inr.inr => omega
  case inl =>
    by_cases hv : s.ValidInputs
    · simp [hpack.2 hv] at ht
    · simp [hidle.2 hv] at ht
  all_goals simp [hp] at ht

/-- The last INDEX step completes the mnemonic. -/
theorem holdsMnemonic_last {s t : State} (hd : s.DataInv) (hlast : LastIndex s) (h : engineStep s = .next t) :
    HoldsMnemonic s t := by
  obtain ⟨hp, hk⟩ := hlast
  obtain ⟨hl, hindex⟩ := (engineStep_answers_iff s).1 ⟨t, h⟩ (by simp [hp, Phase.transforming])
  obtain ⟨hgroup, w, hw⟩ := hindex hp
  have hmax := (nw_le hl).2
  rw [engineStep_index hp hl hgroup hw, nextGroup_last (s := s.storeResult _ _ w) hk] at h
  cases h
  rw [HoldsMnemonic, ← hk, IndicesAre_congr (State.publish_midx _ _), State.publish_midx, State.publish_mword]
  exact ⟨indicesAre_storeResult hd hp hl hgroup w, fun j hj => looked_storeResult hd hp (by omega) hw hj⟩

/-- An engine step of the run leads to a state of the run. -/
theorem runOf_engineStep {s t u : State} (hp : t.phase ≠ .idle) (hr : RunOf s t) (h : engineStep t = .next u) :
    RunOf s u := by
  have hinputs : SameInputs s u := hr.inputs.trans (engineStep_keeps_inputs h)
  obtain ⟨hL, hbits, hvalid, hflags, -⟩ := hr.inputs.reads
  obtain ⟨-, -, -, hwl, -⟩ := hr.inputs
  obtain ⟨hn, herr, -⟩ := hr.running hp
  have hd := hr.dataInv hp
  rcases engineStep_status h with ⟨⟨_, hv⟩, rfl⟩ | ⟨hlast, hl, w, rfl⟩ | ⟨hpasses, _, ⟨hn', _, herr'⟩, hidle⟩
  · have hshow : ShowsResult s (t.raiseErrors t.errorFlags) :=
      .failed (mt hvalid.2 hv) (by simp [hflags]) (by simp [hn])
    exact ⟨hinputs, by simp, by simp [Phase.transforming], by simp, fun _ => ⟨by simp, hshow⟩⟩
  · have hv : s.ValidInputs := hr.valid (by simp [hlast.1, Phase.transforming])
    have hholds := holdsMnemonic_last hd hlast h
    rw [HoldsMnemonic, hL, hbits, hwl] at hholds
    have hwords : (BitVec.ofNat 5 (nw t.entLen)).toNat = nw s.entLen := hL ▸ toNat_ofNat_nw hl
    exact ⟨hinputs, by simp, by simp [Phase.transforming], by simp,
      fun _ => ⟨by simp, .finished hv (by simp [herr]) hwords hholds⟩⟩
  · have hv (hu : u.phase.transforming) : s.ValidInputs := by
      by_cases hval : t.phase = .validate
      · exact hvalid.1 (by_contra fun hv => hpasses ⟨hval, hv⟩)
      · exact hr.valid ⟨hp, hval⟩
    exact ⟨hinputs, fun _ => ⟨hn'.trans hn, herr'.trans herr, runData_engineStep hd h⟩, hv,
      fun hu => hL ▸ group_of_engineStep hp h hu, fun hu => absurd (hidle.1 hu) hp⟩

theorem keptByEngine_runOf (s : State) : KeptByEngine (RunOf s) where
  moves _ := fun ⟨h1, h2, h3, h4, h5⟩ => ⟨h1, h2, h3, h4, fun hp =>
    match h5 hp with
    | ⟨hd, .failed h6 h7 h8⟩ => ⟨hd, .failed h6 h7 h8⟩
    | ⟨hd, .finished h6 h7 h8 h9⟩ => ⟨hd, .finished h6 h7 h8 h9⟩⟩
  engine := runOf_engineStep

/-- Every word of the mnemonic is in the wordlist. -/
def State.LooksUp (s : State) : Prop :=
  ∀ k < nw s.entLen, ∃ w, s.wl.read ((mnemonicIndices s.entropyBits).getD k 0) = some w

/-- An engine step of the run answers if the words of the mnemonic are in the wordlist. -/
theorem runOf_answers {s t : State} (hlook : s.ValidInputs → s.LooksUp) (hp : t.phase ≠ .idle) (hr : RunOf s t) :
    ∃ u, engineStep t = .next u := by
  obtain ⟨hL, hbits, -, -, -⟩ := hr.inputs.reads
  obtain ⟨-, -, -, hwl, -⟩ := hr.inputs
  refine (engineStep_answers_iff t).2 fun htrans => ?_
  have hv := hr.valid htrans
  have hl : inLenSet t.entLen = true := hL ▸ hv.1
  refine ⟨hl, fun hindex => ⟨hL ▸ hr.group hindex, ?_⟩⟩
  have hlen : t.entropyBits.length = t.entLen := length_entropyBits_of_inLenSet hl
  have hgroup := toNat_group (k := t.k.toNat) (by rw [hlen]; exact hl)
    (by rw [hlen]; exact (hr.dataInv hp).joined hindex) (by rw [hlen, hL]; exact hr.group hindex)
  rw [hgroup, hwl, hbits]
  exact hlook hv _ (hr.group hindex)

/-- The acceptance of `ENC` starts a run, with all its steps left (R75). -/
theorem enc_starts {s : State} (ha : Accepts s .enc) (hn : NoReset s) :
    ∃ u, step s = .next u ∧ NoReset u ∧ RunOf s u ∧ u.stepsLeft = s.runSteps := by
  obtain ⟨c, d, rest, hh, e⟩ := step_accepts ha
  have hn' : HostMove.reset ∉ rest := by
    rcases hh with hh | hh <;> simpa [NoReset, hh] using hn
  have hinputs : SameInputs s ((s.present rest d).clearStatus.toPhase .validate) := by simp [SameInputs]
  obtain ⟨-, -, -, -, hsteps⟩ := hinputs.reads
  refine ⟨_, e, by simpa [NoReset] using hn', ⟨hinputs, fun _ => ⟨by simp, by simp, ?_⟩, ?_, by simp, by simp⟩, ?_⟩
  · exact runData_of_not_transforming (by simp [Phase.transforming])
  · simp [Phase.transforming]
  · simpa [State.stepsLeft] using hsteps

/-- Where a run that `ENC` starts ends (R85). -/
theorem enc_run_end {s t : State} (ha : Accepts s .enc) (hn : NoReset s) (h : run (1 + s.runSteps) s = .next t) :
    RunOf s t ∧ t.phase = .idle := by
  obtain ⟨u, hu, hnu, hr, hleft⟩ := enc_starts ha hn
  rw [Nat.add_comm, run_succ_of_next _ hu, ← hleft] at h
  exact (keptByEngine_runOf s).run_end hnu hr h

/-- A run that `ENC` starts gets to its end if the words of the mnemonic are in the wordlist. -/
theorem enc_run_answers {s : State} (ha : Accepts s .enc) (hn : NoReset s) (hlook : s.ValidInputs → s.LooksUp) :
    ∃ t, run (1 + s.runSteps) s = .next t := by
  obtain ⟨u, hu, hnu, hr, hleft⟩ := enc_starts ha hn
  rw [Nat.add_comm, run_succ_of_next _ hu, ← hleft]
  exact ((keptByEngine_runOf s).run_answers (runOf_answers hlook) hnu hr).1

/-! ## The mnemonic -/

/-- The indices of a mnemonic are cells of `WL` (R82). -/
theorem mnemonicIndices_lt (E : List Bool) (k : Nat) : (mnemonicIndices E).getD k 0 < 2048 := by
  rw [List.getD_eq_getElem?_getD]
  by_cases hk : k < (mnemonicIndices E).length
  · rw [List.getElem?_eq_getElem hk, Option.getD_some]
    simp only [mnemonicIndices, List.getElem_map]
    refine (bitsVal_lt _).trans_le (Nat.pow_le_pow_right (by decide) ?_ : _ ≤ 2 ^ 11)
    exact List.length_take_le _ _
  · rw [List.getElem?_eq_none (Nat.not_lt.1 hk)]
    decide

/-- Settles O30: with all cells appended the run answers, and what its last state shows is the mnemonic. -/
theorem encodeRunGivesTheMnemonic : Obligations.EncodeRunGivesTheMnemonic := by
  intro s ha hn hv hfull
  have hlook : s.LooksUp := fun k _ => Option.isSome_iff_exists.1 (hfull _ (mnemonicIndices_lt _ k))
  obtain ⟨t, ht⟩ := enc_run_answers ha hn fun _ => hlook
  obtain ⟨hr, hidle⟩ := enc_run_end ha hn ht
  rw [runSteps_of_valid hv] at ht
  obtain ⟨hcells, hlen, hbad, hwl, hcount, hill⟩ := hr.inputs
  obtain ⟨hdone, hshow⟩ := hr.ended hidle
  cases hshow with
  | failed invalid => exact absurd hv invalid
  | finished _ herr hwords hholds =>
    obtain ⟨hindices, hlooked⟩ := hholds
    rw [(nw_eq hv.1).1] at hwords hindices hlooked
    refine ⟨t, ht, hidle, hdone, herr, hwords, fun k hk => ⟨hindices k hk, ?_⟩, ⟨hcells, hlen, hbad⟩,
      ⟨fun a => by rw [hwl], hcount⟩, hill⟩
    rw [← hindices k hk]
    exact hlooked k hk

/-! ## Two runs -/

/-- States with the same arguments have the same entropy, and their inputs pass the same checks. -/
theorem sameArguments_reads {s s' : State} (h : SameArguments s s') : s'.entLen = s.entLen ∧
    s'.entropyBits = s.entropyBits ∧ s'.errorFlags = s.errorFlags ∧ (s'.ValidInputs ↔ s.ValidInputs) := by
  obtain ⟨hlen, hbad, hcells, hcount, _⟩ := h
  have hL := entLen_congr hlen
  refine ⟨hL, ?_, errorFlags_congr hlen hbad hcount, by rw [State.ValidInputs, State.ValidInputs, hL, hbad, hcount]⟩
  rw [State.entropyBits, State.entropyBits, storedLen_congr hlen]
  exact List.map_congr_left fun i hi => hcells i (List.mem_range.1 hi)

/-- A mnemonic that a state holds was looked up in the wordlist. -/
theorem looksUp_of_holdsMnemonic {s t : State} (h : HoldsMnemonic s t) : s.LooksUp := fun k hk =>
  ⟨_, h.1 k hk ▸ h.2 k hk⟩

/-- The words of the mnemonic, in two wordlists that agree on all cells (R72). -/
theorem looksUp_congr {s s' : State} (hbits : s'.entropyBits = s.entropyBits) (hL : s'.entLen = s.entLen)
    (hwl : ∀ a < Config.wlSize, s'.wl.read a = s.wl.read a) (h : s.LooksUp) : s'.LooksUp := fun k hk => by
  obtain ⟨w, hw⟩ := h k (hL ▸ hk)
  exact ⟨w, by rw [hbits, hwl _ (mnemonicIndices_lt _ k), hw]⟩

/-- What two runs on the same arguments show is the same. -/
theorem showsResult_unique {s s' t t' : State} (harg : SameArguments s s') (h : ShowsResult s t)
    (h' : ShowsResult s' t') : t'.err = t.err ∧ t'.nwords = t.nwords ∧
    ∀ k < t.nwords.toNat, Regs.entry t'.midx k 0 = Regs.entry t.midx k 0 ∧
      Regs.entry t'.mword k 0 = Regs.entry t.mword k 0 := by
  obtain ⟨hL, hbits, hflags, hvalid⟩ := sameArguments_reads harg
  obtain ⟨-, -, -, -, hwl⟩ := harg
  cases h with
  | failed hv herr hn =>
    cases h' with
    | finished hv' => exact absurd (hvalid.1 hv') hv
    | failed _ herr' hn' =>
      exact ⟨by rw [herr', herr, hflags], by rw [hn', hn], fun k hk => absurd hk (by simp [hn])⟩
  | finished hv herr hn hholds =>
    cases h' with
    | failed hv' => exact absurd (hvalid.2 hv) hv'
    | finished _ herr' hn' hholds' =>
      obtain ⟨hindices, hwords⟩ := hholds
      obtain ⟨hindices', hwords'⟩ := hholds'
      rw [hbits, hL] at hindices'
      rw [hL] at hwords'
      refine ⟨by rw [herr', herr], BitVec.eq_of_toNat_eq (by rw [hn', hn, hL]), fun k hk => ?_⟩
      rw [hn] at hk
      have hidx : Regs.entry t'.midx k 0#11 = Regs.entry t.midx k 0#11 :=
        BitVec.eq_of_toNat_eq ((hindices' k hk).trans (hindices k hk).symm)
      have hword := hwords' k hk
      rw [hidx, hwl hv.2.2 _ (Regs.entry t.midx k 0#11).isLt, hwords k hk] at hword
      exact ⟨hidx, (Option.some.inj hword).symm⟩

/-- Settles O32: the words of the first run's mnemonic are in its wordlist, so the second run answers too, and both end with
the result of their arguments. -/
theorem runDependsOnItsArgumentsOnly : Obligations.RunDependsOnItsArgumentsOnly := by
  intro s s' t ha ha' hn hn' harg hrun
  obtain ⟨hr, hidle⟩ := enc_run_end ha hn hrun
  obtain ⟨hdone, hshow⟩ := hr.ended hidle
  obtain ⟨hL, hbits, -, hvalid⟩ := sameArguments_reads harg
  have hlook : s'.ValidInputs → s'.LooksUp := by
    intro hv'
    obtain ⟨-, -, -, -, hwl⟩ := harg
    cases hshow with
    | failed hv => exact absurd (hvalid.1 hv') hv
    | finished hv _ _ hholds => exact looksUp_congr hbits hL (hwl hv.2.2) (looksUp_of_holdsMnemonic hholds)
  obtain ⟨t', hrun'⟩ := enc_run_answers ha' hn' hlook
  obtain ⟨hr', hidle'⟩ := enc_run_end ha' hn' hrun'
  obtain ⟨hdone', hshow'⟩ := hr'.ended hidle'
  exact ⟨t', hrun', hidle, hidle', hdone'.trans hdone.symm, showsResult_unique harg hshow hshow'⟩

end Sys2Proof.Machine
end

section
/-! PROOF. The checksum of a visible result (42_encode.md R89): its indices, eleven bits each, are the entropy and its
checksum cut into groups and put together again. -/

namespace Sys2Proof.Machine

/-- The bits of a visible result are the entropy and its checksum (R89): eleven to an index, all of them. -/
theorem resultBits_eq_fullBits {s : State} {E : List Bool} (hE : inLenSet E.length = true)
    (hn : s.nwords.toNat = nw E.length) (hindices : s.IndicesAre E s.nwords.toNat) : s.resultBits = fullBits E := by
  obtain ⟨hcount, hexact⟩ := nw_eq hE
  have hgroup : ∀ k ∈ List.range (nw E.length),
      (List.range 11).map (BitArray.cell (Regs.entry s.midx k 0#11)) = ((fullBits E).drop (11 * k)).take 11 := by
    intro k hk
    rw [List.mem_range] at hk
    refine bitsVal_inj ?_ ?_
    · simp only [List.length_map, List.length_range, List.length_take, List.length_drop, length_fullBits]
      omega
    · rw [bitsVal_cells, hindices k (hn ▸ hk), mnemonicIndices, getD_map_range _ _ _ _ (by omega)]
  rw [State.resultBits, hn, List.flatMap_congr hgroup,
    flatMap_chunks _ _ (by rw [length_fullBits, hexact]), hexact, ← length_fullBits, List.take_length]

/-- Settles O34: the bits of the result are some entropy and its checksum, and `resultLen` is the length of that entropy. -/
theorem resultRederivesItsChecksum : Obligations.ResultRederivesItsChecksum := by
  intro s _ hd hne
  obtain ⟨E, hE, hn, hindices⟩ := hd.published hne
  have hlen : s.resultLen = E.length := by
    rw [State.resultLen, hn, (nw_eq hE).1]
    rw [inLenSet_iff] at hE
    omega
  rw [resultBits_eq_fullBits hE hn hindices, hlen, fullBits, List.drop_left, List.take_left]

end Sys2Proof.Machine
end

section
/-! PROOF. The padded block and the message schedule (43_sha256.md R95, R97). `extendSchedule` lists the words newest first, so
word `t` of the schedule stands at place `63 - t` of its list. -/

namespace Sys2Proof.Sha256

open Sys2Proof.Machine

/-- The block begins with the message. -/
theorem paddedBlock_message (m : List Byte) {j : Nat} (hj : j < m.length) :
    (paddedBlock m).getD j 0#8 = m.getD j 0#8 := by
  simp only [paddedBlock, List.append_assoc]
  exact List.getD_append _ _ _ _ hj

/-- The byte after the message is 0x80. -/
theorem paddedBlock_marker (m : List Byte) : (paddedBlock m).getD m.length 0#8 = 0x80#8 := by
  simp only [paddedBlock, List.append_assoc]
  rw [List.getD_append_right _ _ _ _ le_rfl, Nat.sub_self]
  rfl

/-- Bytes 56 to 61, the high bytes of the bit length, are zero too. -/
theorem paddedBlock_lengthHigh (m : List Byte) (hm : m.length ≤ 55) {j : Nat} (hj : j < 6) :
    (paddedBlock m).getD (56 + j) 0#8 = 0#8 := by
  rw [paddedBlock_tail m hm (by omega)]
  have hsmall : (8 * m.length) >>> (8 * (7 - j)) = 0 := by
    rw [Nat.shiftRight_eq_div_pow]
    refine Nat.div_eq_of_lt ?_
    calc 8 * m.length < 2 ^ (8 * 2) := by omega
      _ ≤ 2 ^ (8 * (7 - j)) := Nat.pow_le_pow_right (by decide) (by omega)
  rw [hsmall]

theorem length_schedule (m : List Byte) : (schedule m).length = 64 := by
  simp [schedule, length_extendSchedule]

/-- The schedule lists oldest first the words that `extendSchedule` lists newest first. -/
theorem getD_schedule (m : List Byte) {t : Nat} (ht : t < 64) :
    (schedule m).getD t 0#32 =
      (extendSchedule 48 ((List.range 16).map (blockWord (paddedBlock m))).reverse).getD (63 - t) 0#32 := by
  have hlen : (extendSchedule 48 ((List.range 16).map (blockWord (paddedBlock m))).reverse).length = 64 := by
    simp [length_extendSchedule]
  rw [schedule, List.getD_reverse _ (by rw [hlen]; exact ht), hlen]

/-- The first sixteen words are those of the block. -/
theorem schedule_blockWord (m : List Byte) {t : Nat} (ht : t < 16) :
    (schedule m).getD t 0#32 = blockWord (paddedBlock m) t := by
  rw [getD_schedule m (by omega), show 63 - t = 48 + (15 - t) by omega]
  refine (extendSchedule_old 48 _ (15 - t)).trans ?_
  rw [List.getD_reverse _ (by simp; omega), List.length_map, List.length_range,
    show 16 - 1 - (15 - t) = t by omega]
  exact getD_map_range _ _ _ _ ht

/-- A block word is its four bytes read big-endian. -/
theorem toNat_blockWord (b : List Byte) (t : Nat) :
    (blockWord b t).toNat = (b.getD (4 * t) 0#8).toNat * 2 ^ 24 + (b.getD (4 * t + 1) 0#8).toNat * 2 ^ 16 +
      (b.getD (4 * t + 2) 0#8).toNat * 2 ^ 8 + (b.getD (4 * t + 3) 0#8).toNat := by
  rw [blockWord, toNat_append_byte, toNat_append_byte, toNat_append_byte]
  omega

/-- Bytes 62 and 63 are the bit length, big-endian. -/
theorem paddedBlock_lengthLow (m : List Byte) (hm : m.length ≤ 55) :
    ((paddedBlock m).getD 62 0#8).toNat = 8 * m.length / 256 ∧
      ((paddedBlock m).getD 63 0#8).toNat = 8 * m.length % 256 := by
  rw [paddedBlock_tail m hm (j := 6) (by decide), paddedBlock_tail m hm (j := 7) (by decide),
    BitVec.toNat_ofNat, BitVec.toNat_ofNat, Nat.shiftRight_eq_div_pow, Nat.shiftRight_eq_div_pow]
  omega

/-- The bytes between the marker and the two low bytes of the length are zero. -/
theorem paddedBlock_zero (m : List Byte) (hm : m.length ≤ 55) {j : Nat} (hlo : m.length < j) (hhi : j ≤ 61) :
    (paddedBlock m).getD j 0#8 = 0#8 := by
  by_cases hj : j < 56
  · exact paddedBlock_mid m hm hlo hj
  · obtain ⟨i, rfl⟩ := Nat.exists_eq_add_of_le (Nat.le_of_not_lt hj)
    exact paddedBlock_lengthHigh m hm (by omega)

/-- Settles O35: the message, the marker, the zeros, the two low bytes of the length, and the words cut from them. -/
theorem paddedBlockLayout : Obligations.PaddedBlockLayout := by
  intro m hm
  obtain ⟨hbyte62, hbyte63⟩ := paddedBlock_lengthLow m hm
  exact ⟨length_paddedBlock m hm, fun j hj => paddedBlock_message m hj, paddedBlock_marker m,
    fun j hlo hhi => paddedBlock_zero m hm hlo hhi, hbyte62, hbyte63,
    fun t ht => (congrArg BitVec.toNat (schedule_blockWord m ht)).trans (toNat_blockWord _ t)⟩

/-- In a list that `extendSchedule` made, newest word first, each new word is the sum of R97. -/
theorem extendSchedule_new (n : Nat) (ws : List W32) {i : Nat} (hi : i < n) :
    (extendSchedule n ws).getD i 0 =
      ssig1 ((extendSchedule n ws).getD (i + 2) 0) + (extendSchedule n ws).getD (i + 7) 0 +
        ssig0 ((extendSchedule n ws).getD (i + 15) 0) + (extendSchedule n ws).getD (i + 16) 0 := by
  induction n generalizing ws with
  | zero => omega
  | succ n ih =>
    rw [extendSchedule]
    by_cases hlast : i = n
    · subst hlast
      rw [extendSchedule_old, extendSchedule_old, extendSchedule_old, extendSchedule_old]
      exact extendSchedule_old i _ 0
    · exact ih _ (by omega)

/-- Word `t` of the schedule stands at place `63 - t` of the list that `extendSchedule` made, so it is the sum of R97. -/
theorem schedule_sum (m : List Byte) {t : Nat} (hlo : 16 ≤ t) (hhi : t < 64) :
    (schedule m).getD t 0#32 =
      ssig1 ((schedule m).getD (t - 2) 0#32) + (schedule m).getD (t - 7) 0#32 +
        ssig0 ((schedule m).getD (t - 15) 0#32) + (schedule m).getD (t - 16) 0#32 := by
  rw [getD_schedule m hhi, getD_schedule m (t := t - 2) (by omega), getD_schedule m (t := t - 7) (by omega),
    getD_schedule m (t := t - 15) (by omega), getD_schedule m (t := t - 16) (by omega),
    show 63 - (t - 2) = 63 - t + 2 by omega, show 63 - (t - 7) = 63 - t + 7 by omega,
    show 63 - (t - 15) = 63 - t + 15 by omega, show 63 - (t - 16) = 63 - t + 16 by omega]
  exact extendSchedule_new 48 _ (by omega)

/-- Settles O36: every step of `extendSchedule` puts the sum of R97 in front. -/
theorem scheduleRecurrence : Obligations.ScheduleRecurrence :=
  fun m => ⟨length_schedule m, fun _ hlo hhi => schedule_sum m hlo hhi⟩

end Sys2Proof.Sha256
end

section
/-! PROOF. The logical functions, the rounds and the digest (43_sha256.md R96, R100, R101). -/

namespace Sys2Proof.Sha256

open Sys2Proof.Machine

/-- Bit `i` of `ROTR(x, r)` is bit `i + r` of `x`, counted modulo 32. -/
theorem getLsbD_rotr (x : W32) {r i : Nat} (hr : r < 32) (hi : i < 32) :
    (rotr x r).getLsbD i = x.getLsbD ((i + r) % 32) := by
  rw [rotr, BitVec.getLsbD_or, BitVec.getLsbD_ushiftRight, BitVec.getLsbD_shiftLeft]
  by_cases h : i + r < 32
  · have hlow : i < 32 - r := by omega
    simp [hlow, Nat.mod_eq_of_lt h, Nat.add_comm r i]
  · have hwrap : (i + r) % 32 = i - (32 - r) := by omega
    have hhigh : 32 - r ≤ i := by omega
    simp [hi, hwrap, Nat.not_lt.2 hhigh, BitVec.getLsbD_of_ge x (r + i) (by omega)]

/-- Bit `i` of `SHR(x, n)` is bit `i + n` of `x`, zeros shifted in. -/
theorem getLsbD_shr (x : W32) (n i : Nat) :
    (x >>> n).getLsbD i = if i + n < 32 then x.getLsbD (i + n) else false := by
  rw [BitVec.getLsbD_ushiftRight, Nat.add_comm]
  split
  · rfl
  · exact BitVec.getLsbD_of_ge _ _ (by omega)

/-- `Ch` chooses, bit by bit. -/
theorem getLsbD_ch (x y z : W32) {i : Nat} (hi : i < 32) :
    (ch x y z).getLsbD i = if x.getLsbD i then y.getLsbD i else z.getLsbD i := by
  simp only [ch, BitVec.getLsbD_xor, BitVec.getLsbD_and, BitVec.getLsbD_not, hi]
  cases x.getLsbD i <;> simp

/-- `Maj` is the majority, bit by bit. -/
theorem getLsbD_maj (x y z : W32) (i : Nat) :
    (maj x y z).getLsbD i = decide (2 ≤ (x.getLsbD i).toNat + (y.getLsbD i).toNat + (z.getLsbD i).toNat) := by
  simp only [maj, BitVec.getLsbD_xor, BitVec.getLsbD_and]
  cases x.getLsbD i <;> cases y.getLsbD i <;> cases z.getLsbD i <;> rfl

/-- Settles O38: each function is taken apart into the bits of its rotated and shifted words. -/
theorem logicalFunctionsBitByBit : Obligations.LogicalFunctionsBitByBit := by
  intro x y z i hi
  have hrot : ∀ r < 32, (rotr x r).getLsbD i = x.getLsbD ((i + r) % 32) := fun r hr => getLsbD_rotr x hr hi
  refine ⟨getLsbD_ch x y z hi, getLsbD_maj x y z i, ?_, ?_, ?_, ?_⟩
  · simp only [bsig0, BitVec.getLsbD_xor, hrot 2 (by decide), hrot 13 (by decide), hrot 22 (by decide)]
  · simp only [bsig1, BitVec.getLsbD_xor, hrot 6 (by decide), hrot 11 (by decide), hrot 25 (by decide)]
  · simp only [ssig0, BitVec.getLsbD_xor, hrot 7 (by decide), hrot 18 (by decide), getLsbD_shr]
  · simp only [ssig1, BitVec.getLsbD_xor, hrot 17 (by decide), hrot 19 (by decide), getLsbD_shr]

/-- One more constant and one more word make one more round. -/
theorem rounds_take_succ {ks ws : List W32} {t : Nat} (hks : t < ks.length) (hws : t < ws.length) :
    rounds (ks.take (t + 1)) (ws.take (t + 1)) =
      round (rounds (ks.take t) (ws.take t)) (ks.getD t 0) (ws.getD t 0) := by
  rw [rounds, zip_take_succ t ks ws hks hws 0 0, List.foldl_append]
  rfl

theorem length_k256 : k256.length = 64 := by decide

/-- Settles O37: every prefix of the constants and words is one round longer than the one before, and the prefixes of
length 64 are the lists. -/
theorem compressionIsSixtyFourRounds : Obligations.CompressionIsSixtyFourRounds := by
  intro ws hlen
  have hall : rounds (k256.take 64) (ws.take 64) = rounds k256 ws := by
    rw [List.take_of_length_le (Nat.le_of_eq length_k256), List.take_of_length_le (Nat.le_of_eq hlen)]
  refine ⟨rfl, fun t ht => ?_, ?_⟩
  · exact rounds_take_succ (by rwa [length_k256]) (by rwa [hlen])
  · dsimp only
    rw [hall, compress]

/-- The digest words in order, `H0'` first. -/
def Vars.words (v : Vars) : List W32 := [v.a, v.b, v.c, v.d, v.e, v.f, v.g, v.h]

/-- Digest word `i` is the slice of 32 bits at `224 - 32i`. -/
theorem extractLsb'_digestOf (v : Vars) {i : Nat} (hi : i < 8) :
    (digestOf v).extractLsb' (224 - 32 * i) 32 = v.words.getD i 0 := by
  change BitVec.extractLsb' (n := 32 + 32 + 32 + 32 + 32 + 32 + 32 + 32) _ _
    (v.a ++ v.b ++ v.c ++ v.d ++ v.e ++ v.f ++ v.g ++ v.h) = _
  interval_cases i <;>
    simp (disch := decide) only [Nat.reduceMul, Nat.reduceSub, BitVec.extractLsb'_append_eq_of_le,
      BitVec.extractLsb'_append_eq_of_add_le, BitVec.extractLsb'_eq_self] <;>
    rfl

/-- Byte `j` of a slice of 32 bits, counted from its low end, is read from the slice's number. -/
theorem toNat_extractLsb'_byte {n : Nat} (x : BitVec n) (a : Nat) {j : Nat} (hj : j < 4) :
    (x.extractLsb' (a + 8 * j) 8).toNat = (x.extractLsb' a 32).toNat / 2 ^ (8 * j) % 256 := by
  rw [BitVec.extractLsb'_toNat, BitVec.extractLsb'_toNat, Nat.shiftRight_add, Nat.shiftRight_eq_div_pow _ (8 * j)]
  interval_cases j <;> omega

/-- Byte `4i + k` of the digest, first byte on top, is byte `k` of digest word `i`. -/
theorem toNat_digestOf_byte (v : Vars) {i k : Nat} (hi : i < 8) (hk : k < 4) :
    ((digestOf v).extractLsb' (248 - 8 * (4 * i + k)) 8).toNat =
      (v.words.getD i 0).toNat / 2 ^ (8 * (3 - k)) % 256 := by
  rw [show 248 - 8 * (4 * i + k) = 224 - 32 * i + 8 * (3 - k) by omega,
    toNat_extractLsb'_byte _ _ (by omega), extractLsb'_digestOf v hi]

/-- Settles O39: the slice of word `i`, and in it the four bytes. -/
theorem digestIsTheEightWords : Obligations.DigestIsTheEightWords := by
  intro m
  refine ⟨rfl, extractLsb'_digestOf _ (i := 0) (by decide), fun i hi => ?_⟩
  have hbyte {k : Nat} (hk : k < 4) := toNat_digestOf_byte (compress (schedule m)) hi hk
  have hword := ((compress (schedule m)).words.getD i 0).isLt
  refine ⟨(hbyte (k := 0) (by decide)).trans (Nat.mod_eq_of_lt ?_), hbyte (k := 1) (by decide),
    hbyte (k := 2) (by decide), (hbyte (k := 3) (by decide)).trans ?_⟩
  · omega
  · rw [Nat.sub_self, Nat.mul_zero, pow_zero, Nat.div_one]
    rfl

/-- Settles O40: seven closed computations, run in the kernel. -/
theorem digestCheckValues : Obligations.DigestCheckValues := by
  refine ⟨?_, ?_, ?_, ?_, ?_, ?_, ?_⟩ <;> decide +kernel

end Sys2Proof.Sha256
end

section
/-! PROOF. The command `INV` (44_invert.md R102, R103): one named update of `EBUF`, which is its own inverse because it
keeps `LEN` and with it the number of cells it complements. -/

namespace Sys2Proof.Machine

/-- The entropy buffer after `INV` (R102): the bound `min(LEN, 256)` is not above the number of its cells. -/
theorem cell_inv (s : State) (i : Nat) : (s.flipEntropy s.storedLen).ebuf.cell i =
    if i < min s.len.toNat 256 then !s.ebuf.cell i else s.ebuf.cell i := by
  have hcell : i < min s.len.toNat 256 ∧ i < 256 ↔ i < min s.len.toNat 256 := by omega
  rw [State.flipEntropy_ebuf, BitArray.cell_flipBelow, storedLen_eq, if_congr hcell rfl rfl]

/-- Settles O5: the cells by `cell_inv` and, above the bound, clause (a) of R35; the frame by the lemmas of the update. -/
theorem invComplementsStoredCells : Obligations.InvComplementsStoredCells := by
  refine ⟨decode_encode .inv, fun s => ⟨_, exec_inv s, fun i hi => ?complemented, fun i hi => ?kept,
    fun hs i hi => ?zero, ?len, ?badch, ?frame⟩⟩
  case complemented => rw [cell_inv, if_pos hi]
  case kept => rw [cell_inv, if_neg (Nat.not_lt.2 hi)]
  case zero => rw [cell_inv, if_neg (Nat.not_lt.2 hi), hs.entropyTail i hi]
  case len => rw [State.flipEntropy_len]
  case badch => rw [State.flipEntropy_badch]
  case frame => simp [SameWordlist, SameDatapath, SameResult, SameStatus, SameOutside]

/-- Flipping the same cells of `EBUF` twice restores the whole state. -/
theorem flipEntropy_flipEntropy (s : State) (m : Nat) : (s.flipEntropy m).flipEntropy m = s := by
  cases s
  simp only [State.flipEntropy, BitArray.flipBelow_flipBelow]

/-- Settles O10: the second `INV` finds the same `LEN`, so it flips the same cells again. -/
theorem invTwiceRestores : Obligations.InvTwiceRestores := by
  intro s
  have hlen : (s.flipEntropy s.storedLen).storedLen = s.storedLen := storedLen_congr (State.flipEntropy_len s _)
  exact ⟨_, exec_inv s, by rw [exec_inv, hlen, flipEntropy_flipEntropy]⟩

end Sys2Proof.Machine
end

section
/-! PROOF. The idle block with nothing presented (70_reset_and_hazards.md R125) and the run that fails (60_exceptions.md R114):
the last state of that run is the present one after four named updates, whose fields are the lemmas of Laws/State.lean. -/

namespace Sys2Proof.Machine

/-- Settles O18: with no word presented the step is an engine step, and an idle engine does nothing. -/
theorem idleBlockWaits : Obligations.IdleBlockWaits := fun s hp =>
  ⟨fun hh => (step_nil hh).trans (engineStep_idle hp),
    fun rest hh => (step_quiet hh).trans (engineStep_idle (s := s.withHost rest) hp)⟩

/-- With no reset coming, the VALIDATE step on inputs that fail a check is the error entry, whatever the host presents. -/
theorem step_invalid {s : State} (hn : NoReset s) (hp : s.phase = .validate) (hv : ¬s.ValidInputs) :
    ∃ moves, step s = .next ((s.withHost moves).raiseErrors s.errorFlags) := by
  obtain ⟨moves, -, hengine⟩ := step_busy hn (by simp [hp])
  exact ⟨moves, hengine.trans (engineStep_invalid (s := s.withHost moves) hp hv)⟩

/-- The two steps of a failing run: the acceptance of `ENC` (R75), then the error entry with the causes of its inputs
(R114). What the host presents shows in the sampled operand and in the coming moves only. -/
theorem run_enc_invalid {s : State} (ha : Accepts s .enc) (hn : NoReset s) (hv : ¬s.ValidInputs) :
    ∃ moves d, run 2 s = .next (((s.present moves d).clearStatus.toPhase .validate).raiseErrors s.errorFlags) := by
  obtain ⟨u, hu, hnu, hr, -⟩ := enc_starts ha hn
  obtain ⟨-, -, hvalid, hflags, -⟩ := hr.inputs.reads
  obtain ⟨_, d, rest, -, haccept⟩ := step_accepts ha
  obtain rfl : (s.present rest d).clearStatus.toPhase .validate = u := by simpa using haccept.symm.trans hu
  obtain ⟨moves, hfails⟩ := step_invalid hnu (State.toPhase_phase _ _) (mt hvalid.1 hv)
  refine ⟨moves, d, ?_⟩
  rw [run_succ_of_next 1 hu, run_succ_of_next 0 hfails, run_zero, hflags]
  rfl

/-- Settles O31: the run ends in the state of `run_enc_invalid`, where `ERR` holds a cause because the inputs are not valid
and no entry is visible because the acceptance of `ENC` cleared `NWORDS`. -/
theorem failedRunLeavesNothing : Obligations.FailedRunLeavesNothing := by
  intro s ha hn hv
  obtain ⟨moves, d, hrun⟩ := run_enc_invalid ha hn hv
  refine ⟨_, hrun, ?idle, ?ready, ?done, ?nwords, ?cause, ?err, fun sel => ?hidden, ?frame⟩
  case ready => simp [State.cmdReady]
  case cause => simpa using mt (errorFlags_eq_zero s).1 hv
  case hidden => exact result_not_valid (by simp)
  case frame => simp [SameEntropy, SameWordlist, SameDatapath, SameResult]
  all_goals simp

end Sys2Proof.Machine
end
